-- ==== Sys2Proof/Word.lean ====
section
/-! DEFINITION. The machine's words: plain names for the bit vectors the spec uses (00_scope.md R6-R8). -/

namespace Sys2Proof

/-- A register, an ALU operand, a memory word, an address: 32 bits (R7, R8). -/
abbrev Word := BitVec 32

/-- The unit both stores are addressed in (20_memory.md R50). -/
abbrev Byte := BitVec 8

/-- A register number, 0 to 31 (R6). -/
abbrev Reg := BitVec 5

end Sys2Proof
end

