-- ==== Sys2Proof/Config.lean ====
section
/-! DEFINITION. The parameters the spec gives the model (00_scope.md R10) and the one free value. -/

namespace Sys2Proof.Config

/-- OOB_WRITE_POLICY: what a store does when some of its four bytes lie at or beyond MEM_SIZE
(R10; 20_memory.md R54; 92_eei_decisions.md D19). -/
inductive OobWritePolicy where
  /-- The store happens only if all four bytes lie below MEM_SIZE. -/
  | wholeWord
  /-- Each byte below MEM_SIZE is written, the others are dropped. -/
  | perByte
deriving DecidableEq, Repr

/-- MISALIGNED_POLICY: what a data access at an address that is not a multiple of 4 does
(R10; 20_memory.md R57; 92_eei_decisions.md D20). -/
inductive MisalignedPolicy where
  /-- The four bytes starting at the address are moved. -/
  | bytewise
  /-- The access is a model fault. -/
  | fault
deriving DecidableEq, Repr

/-- The two parameters of a run that the machine itself reads (R10; notes/assumptions/5.md). -/
structure Params where
  oobWrite   : OobWritePolicy
  misaligned : MisalignedPolicy
deriving DecidableEq, Repr

/-- The defaults the spec decides on (R10). -/
def Params.default : Params := ⟨.wholeWord, .bytewise⟩

/-- The ALU's output when ALU control selects no operation: "yields no output (undefined)" (40_pipeline.md R118, R119).
A valid instruction never gets this far, it faults first (44_halt_undefined.md R192), so only a state that no run
reaches can show it. A free value: DESIGN CHOICE, safe (notes/assumptions/8.md). -/
opaque undrivenAlu : Word → Word → Word

end Sys2Proof.Config
end

