-- ==== Sys2Proof/Machine/State.lean ====
section
/-! DEFINITION. The state of the machine (10_state.md R20), its reset value, and the reasons a step can stop. -/

namespace Sys2Proof.Machine

open Sys2Proof.Config

/-- The model faults of 60_exceptions.md R206, with the information each records. The hardware raises nothing (R200). -/
inductive Fault where
  /-- Raised by an R-type word whose function code is not 0x20, in its EX cycle (44_halt_undefined.md R192): the word's
  address and its function code. Safe: the hardware writes an undefined value into rd and goes on, the model stops. -/
  | unimplementedFunct (address : Word) (funct : BitVec 6)
  /-- Raised under MISALIGNED_POLICY = fault by a LW or SW whose address is not a multiple of 4, in its MEM cycle
  (20_memory.md R57): the address. Safe: the policy is the one under which such accesses are never meant to happen. -/
  | misalignedData (address : Word)
deriving DecidableEq, Repr

/-- The reasons the model gives an instruction no meaning. -/
inductive Refusal where
  /-- An instruction that has no meaning yet. No arm of `exec` uses it. Safe. -/
  | notModelled (mnemonic : String)
deriving DecidableEq, Repr

/-- The control unit's two-bit alu_op line: 00 add, 01 subtract, 10 function-passthrough (10_state.md R28). The value 11,
which the control unit never produces, cannot be written (92_eei_decisions.md D18; notes/assumptions/10.md). -/
inductive AluOp where
  | add
  | subtract
  | passthrough
deriving DecidableEq, Repr

/-- The control word (40_pipeline.md R113). -/
structure ControlWord where
  regDst    : Bool := false
  jump      : Bool := false
  branch    : Bool := false
  memToReg  : Bool := false
  memRead   : Bool := false
  memWrite  : Bool := false
  aluSrc    : Bool := false
  regWrite  : Bool := false
  terminate : Bool := false
  aluOp     : AluOp := .add
deriving DecidableEq, Repr

/-- Latch IF/ID (10_state.md R27). -/
structure IfId where
  valid : Bool
  instr : Word
  pc4   : Word
deriving DecidableEq, Repr

/-- Latch ID/EX (10_state.md R28). -/
structure IdEx where
  valid  : Bool
  ctl    : ControlWord
  pc4    : Word
  rd1    : Word
  rd2    : Word
  imm    : Word
  rs     : Reg
  rt     : Reg
  rd     : Reg
  funct  : BitVec 6
  target : BitVec 26
deriving DecidableEq, Repr

/-- Latch EX/MEM (10_state.md R29). -/
structure ExMem where
  valid     : Bool
  memToReg  : Bool := false
  memRead   : Bool := false
  memWrite  : Bool := false
  regWrite  : Bool := false
  terminate : Bool := false
  aluResult : Word
  storeData : Word
  writeReg  : Reg
deriving DecidableEq, Repr

/-- Latch MEM/WB (10_state.md R30). -/
structure MemWb where
  valid     : Bool
  memToReg  : Bool
  regWrite  : Bool
  memData   : Word
  aluResult : Word
  writeReg  : Reg
deriving DecidableEq, Repr

/-- A bubble in each latch: valid 0, every control line 0, alu_op add, every data field 0 (10_state.md R31). -/
def IfId.bubble : IfId := ⟨false, 0, 0⟩
def IdEx.bubble : IdEx := ⟨false, {}, 0, 0, 0, 0, 0, 0, 0, 0, 0⟩
def ExMem.bubble : ExMem := { valid := false, aluResult := 0, storeData := 0, writeReg := 0 }
def MemWb.bubble : MemWb := ⟨false, false, false, 0, 0, 0⟩

/-- A store's contents: cells in strictly rising address order, none holding 0, which is what an unlisted byte reads as:
every byte of DMEM is 0 at reset (10_state.md R34), and a byte past the end reads 0 (20_memory.md R53). -/
abbrev Memory := List Host.Cell

/-- The register file's contents, x[0] to x[31] (10_state.md R21). -/
abbrev Regs := Vector Word 32

/-- The whole state (10_state.md R20) with the parameters of the run (00_scope.md R9, R10). -/
structure State where
  /-- `x[0..31]` (R21). -/
  regs    : Regs
  /-- The address the IF stage fetches from in this cycle (R25). -/
  pc      : Word
  ifId    : IfId
  idEx    : IdEx
  exMem   : ExMem
  memWb   : MemWb
  /-- The instruction store IMEM (R33). -/
  imem    : Memory
  /-- The data store DMEM (R34). -/
  dmem    : Memory
  /-- MEM_SIZE, the length in bytes of both stores (00_scope.md R9). -/
  memSize : Nat
  /-- The retired-instruction counter (R35). -/
  retired : Nat
  /-- The cycle counter (R37). -/
  cycles  : Nat
  /-- The halt flag (R36). -/
  halted  : Bool
  /-- The model-only fault record (R41). -/
  fault   : Option Fault
  /-- OOB_WRITE_POLICY and MISALIGNED_POLICY (00_scope.md R10). -/
  params  : Params
deriving DecidableEq, Repr

/-- What an instruction or a step answers. -/
abbrev Result := Host.Outcome State Fault Refusal

/-- The machine right after reset (10_state.md section 7; 70_reset_and_hazards.md R230), with no image loaded and the
parameters at their defaults (notes/assumptions/4.md, notes/assumptions/5.md). -/
def State.reset : State where
  regs    := Vector.replicate 32 0
  pc      := 0
  ifId    := .bubble
  idEx    := .bubble
  exMem   := .bubble
  memWb   := .bubble
  imem    := []
  dmem    := []
  memSize := 0
  retired := 0
  cycles  := 0
  halted  := false
  fault   := none
  params  := .default

end Sys2Proof.Machine
end

