-- ==== Sys2Proof/Machine/Flags.lean ====
section
/-! DEFINITION. ALU control, the ALU and its zero output (40_pipeline.md section 3). The machine keeps no flag (10_state.md R38):
the zero output is used in the cycle that computes it, by BEQ. -/

namespace Sys2Proof.Machine

open Sys2Proof

/-- The ALU's two operations (40_pipeline.md R119). -/
inductive AluFn where
  | add
  | subtract
deriving DecidableEq, Repr

/-- ALUControl (40_pipeline.md R118); `none` is "yields no output (undefined)". -/
def aluControl (op : AluOp) (funct : BitVec 6) : Option AluFn :=
  match op with
  | .add => some .add
  | .subtract => some .subtract
  | .passthrough => if funct = 0x20#6 then some .add else none

/-- The ALU (40_pipeline.md R119): modulo 2^32, no carry, no overflow. With no operation selected its output is a free
value (notes/assumptions/8.md). -/
def alu (fn : Option AluFn) (a b : Word) : Word :=
  match fn with
  | some .add => a + b
  | some .subtract => a - b
  | none => Config.undrivenAlu a b

/-- The ALU's zero output (40_pipeline.md R120). -/
def zeroOutput (result : Word) : Bool := result == 0#32

end Sys2Proof.Machine
end

