-- ==== Sys2Proof/Syntax.lean ====
section
/-! DEFINITION. The instructions: one constructor per row of spec/opcode_table.json (30_encoding.md R86). -/

namespace Sys2Proof

/-- An instruction word, cut into the fields its format uses (30_encoding.md R81, R82). The bits a format ignores are kept:
they do not change what the word does (R89), but bits [25:16] of every word drive the register reads and the hazard unit (R83). -/
inductive Instr where
  /-- ADD (41_alu.md R161); `ignored` is bits [10:6]. -/
  | add (rs rt rd : Reg) (ignored : BitVec 5)
  /-- ADDI (41_alu.md R162). -/
  | addi (rs rt : Reg) (imm : BitVec 16)
  /-- BEQ (43_control.md R180). -/
  | beq (rs rt : Reg) (imm : BitVec 16)
  /-- J (43_control.md R181). -/
  | j (target : BitVec 26)
  /-- LW (42_loadstore.md R170). -/
  | lw (rs rt : Reg) (imm : BitVec 16)
  /-- SW (42_loadstore.md R171). -/
  | sw (rs rt : Reg) (imm : BitVec 16)
  /-- HLT (44_halt_undefined.md R190); `ignored` is bits [25:0]. -/
  | hlt (ignored : BitVec 26)
  /-- An R-type word whose function code is not 0x20 (44_halt_undefined.md R192); `ignored` is bits [10:6]. -/
  | unimplementedRType (rs rt rd : Reg) (ignored : BitVec 5) (funct : BitVec 6)
  /-- A word whose opcode is none of the seven (44_halt_undefined.md R191); `rest` is bits [25:0]. -/
  | unknownOpcode (opcode : BitVec 6) (rest : BitVec 26)
deriving DecidableEq, Repr

end Sys2Proof
end

