-- ==== Sys2Proof/WellFormed.lean ====
section
/-! DEFINITION. Which instruction terms stand for a word of their own row (30_encoding.md R86-R88). -/

namespace Sys2Proof

/-- The seven opcodes of the opcode map (30_encoding.md R86); the other 57 are unknown (R87). -/
def knownOpcodes : List (BitVec 6) := [0x00#6, 0x02#6, 0x04#6, 0x08#6, 0x23#6, 0x2B#6, 0x3F#6]

/-- An unimplemented R-type word's function code is not ADD's (R88), and an unknown opcode is none of the seven (R87).
Every other field may hold any value (R89). -/
def Instr.wellFormed : Instr → Bool
  | .add _ _ _ _ => true
  | .addi _ _ _ => true
  | .beq _ _ _ => true
  | .j _ => true
  | .lw _ _ _ => true
  | .sw _ _ _ => true
  | .hlt _ => true
  | .unimplementedRType _ _ _ _ funct => funct != 0x20#6
  | .unknownOpcode opcode _ => !knownOpcodes.contains opcode

end Sys2Proof
end

