-- ==== Sys2Proof/Decode.lean ====
section
/-! DEFINITION. The decoder, then the encoder (30_encoding.md). -/

namespace Sys2Proof

/-! ### The fields of every word (30_encoding.md R81) -/

/-- `opcode`, bits [31:26]. -/
def opcodeField (w : Word) : BitVec 6 := w.extractLsb' 26 6
/-- `rs`, bits [25:21]. -/
def rsField (w : Word) : Reg := w.extractLsb' 21 5
/-- `rt`, bits [20:16]. -/
def rtField (w : Word) : Reg := w.extractLsb' 16 5
/-- `rd`, bits [15:11]. -/
def rdField (w : Word) : Reg := w.extractLsb' 11 5
/-- Bits [10:6], which no rule reads. -/
def shamtField (w : Word) : BitVec 5 := w.extractLsb' 6 5
/-- `funct`, bits [5:0]. -/
def functField (w : Word) : BitVec 6 := w.extractLsb' 0 6
/-- `imm`, bits [15:0]. -/
def immField (w : Word) : BitVec 16 := w.extractLsb' 0 16
/-- `target`, bits [25:0]. -/
def targetField (w : Word) : BitVec 26 := w.extractLsb' 0 26

/-! ### Decoding -/

/-- The opcode map (30_encoding.md R86-R88): every word is an instruction, no encoding traps (R89). -/
def decodeWord (w : Word) : Instr :=
  let op := opcodeField w
  if op = 0x00#6 then
    if functField w = 0x20#6 then .add (rsField w) (rtField w) (rdField w) (shamtField w)
    else .unimplementedRType (rsField w) (rtField w) (rdField w) (shamtField w) (functField w)
  else if op = 0x02#6 then .j (targetField w)
  else if op = 0x04#6 then .beq (rsField w) (rtField w) (immField w)
  else if op = 0x08#6 then .addi (rsField w) (rtField w) (immField w)
  else if op = 0x23#6 then .lw (rsField w) (rtField w) (immField w)
  else if op = 0x2B#6 then .sw (rsField w) (rtField w) (immField w)
  else if op = 0x3F#6 then .hlt (targetField w)
  else .unknownOpcode op (targetField w)

/-- A field put at bit `lo` of a word, every other bit 0. -/
def placed {n : Nat} (v : BitVec n) (lo : Nat) : Word := v.setWidth 32 <<< lo

/-- Four bytes, the first at the lowest address, as a word: little-endian (20_memory.md R51). -/
def wordOfBytes (b0 b1 b2 b3 : Byte) : Word :=
  placed b3 24 ||| placed b2 16 ||| placed b1 8 ||| placed b0 0

/-- Byte k of a word: bits [8k+7 : 8k] (20_memory.md R54). -/
def byteOfWord (w : Word) (k : Nat) : Byte := w.extractLsb' (8 * k) 8

/-- The four bytes of a word in the order the stores hold them. -/
def bytesOfWord (w : Word) : List Byte := [byteOfWord w 0, byteOfWord w 1, byteOfWord w 2, byteOfWord w 3]

/-- Why a sequence of bytes is no instruction. There is one reason only, since every word decodes (30_encoding.md R80, R89). -/
inductive DecodeReject where
  /-- Fewer than the four bytes of an instruction (R80). A fetch never shows this: bytes past the end of the store read
  as 0 (20_memory.md R53). Safe. -/
  | truncated
deriving DecidableEq, Repr

/-- The instruction at the front of a sequence of bytes and the bytes after it; every instruction is four bytes long (R80). -/
def decode : List Byte → Except DecodeReject (Instr × List Byte)
  | b0 :: b1 :: b2 :: b3 :: rest => .ok (decodeWord (wordOfBytes b0 b1 b2 b3), rest)
  | _ => .error .truncated

/-- The instruction of a table row's word: its `nbits` bits, every higher bit 0, laid out as the instruction store holds
them and given to `decode` (notes/assumptions/20.md). -/
def decodeTableWord (nbits w : Nat) : Option Instr :=
  match decode (bytesOfWord (BitVec.ofNat 32 (w % 2 ^ nbits))) with
  | .ok (i, _) => some i
  | .error _ => none

/-! ### Encoding -/

/-- Format R (30_encoding.md R82): opcode 0x00 leaves bits [31:26] 0. -/
def encodeR (rs rt rd : Reg) (ignored : BitVec 5) (funct : BitVec 6) : Word :=
  placed rs 21 ||| placed rt 16 ||| placed rd 11 ||| placed ignored 6 ||| placed funct 0
/-- Format I (R82). -/
def encodeI (opcode : BitVec 6) (rs rt : Reg) (imm : BitVec 16) : Word :=
  placed opcode 26 ||| placed rs 21 ||| placed rt 16 ||| placed imm 0
/-- Formats J and H: the opcode and 26 more bits (R82). -/
def encodeJ (opcode : BitVec 6) (rest : BitVec 26) : Word :=
  placed opcode 26 ||| placed rest 0

/-- The word of an instruction (30_encoding.md R82, R86). -/
def encode : Instr → Word
  | .add rs rt rd ignored => encodeR rs rt rd ignored 0x20#6
  | .addi rs rt imm => encodeI 0x08#6 rs rt imm
  | .beq rs rt imm => encodeI 0x04#6 rs rt imm
  | .j target => encodeJ 0x02#6 target
  | .lw rs rt imm => encodeI 0x23#6 rs rt imm
  | .sw rs rt imm => encodeI 0x2B#6 rs rt imm
  | .hlt ignored => encodeJ 0x3F#6 ignored
  | .unimplementedRType rs rt rd ignored funct => encodeR rs rt rd ignored funct
  | .unknownOpcode opcode rest => encodeJ opcode rest

end Sys2Proof
end

