-- ==== Sys2Proof/Machine/Ops.lean ====
section
/-! DEFINITION. The named operations over the two stores and the register file, the control unit, and the clock edge every
instruction shares (40_pipeline.md). -/

namespace Sys2Proof.Machine

open Sys2Proof Sys2Proof.Config

/-! ### One byte of a store -/

/-- The byte a store holds at an address; an unlisted byte is 0 (10_state.md R34). -/
def Memory.read : Memory → Nat → Byte
  | [], _ => 0#8
  | (k, b) :: rest, a => if a = k then b else Memory.read rest a

/-- A store with one byte replaced. The form stays canonical: a byte of 0 is not listed. -/
def Memory.write : Memory → Nat → Byte → Memory
  | [], a, v => if v = 0#8 then [] else [(a, v)]
  | (k, b) :: rest, a, v =>
    if a < k then (if v = 0#8 then (k, b) :: rest else (a, v) :: (k, b) :: rest)
    else if a = k then (if v = 0#8 then rest else (a, v) :: rest)
    else (k, b) :: Memory.write rest a v

/-- Addresses from `low` on, strictly rising, no byte 0. -/
def Memory.wfFrom : Nat → Memory → Bool
  | _, [] => true
  | low, (k, b) :: rest => decide (low ≤ k) && b != 0#8 && Memory.wfFrom (k + 1) rest

/-- The canonical form: equal contents are equal lists. -/
def Memory.wf (m : Memory) : Bool := Memory.wfFrom 0 m

/-- Every listed address lies below MEM_SIZE (20_memory.md R60). -/
def Memory.within (size : Nat) (m : Memory) : Bool := m.all fun c => decide (c.1 < size)

/-- A list of bytes from an address on, as a store's contents. -/
def Memory.ofBytesFrom : Nat → List Byte → Memory
  | _, [] => []
  | a, b :: rest => if b = 0#8 then Memory.ofBytesFrom (a + 1) rest else (a, b) :: Memory.ofBytesFrom (a + 1) rest

/-- The memory image: "bytes in address order, byte 0 = lowest address" (20_memory.md R66). -/
def Memory.ofImage (image : List Byte) : Memory := Memory.ofBytesFrom 0 image

/-! ### Word accesses (20_memory.md section 3) -/

/-- Byte k of the word at an address, 0 at or beyond MEM_SIZE; the index is a natural number and does not wrap (R53, R67). -/
def byteAt (size : Nat) (m : Memory) (a : Word) (k : Nat) : Byte :=
  if a.toNat + k < size then Memory.read m (a.toNat + k) else 0#8

/-- Read(store, a): four bytes, little-endian (R51, R53). -/
def readWord (size : Nat) (m : Memory) (a : Word) : Word :=
  wordOfBytes (byteAt size m a 0) (byteAt size m a 1) (byteAt size m a 2) (byteAt size m a 3)

/-- One byte of a store, dropped at or beyond MEM_SIZE (R54, `per_byte`). -/
def writeByteInBounds (size : Nat) (m : Memory) (a : Nat) (v : Byte) : Memory :=
  if a < size then Memory.write m a v else m

/-- The four bytes of a word in address order, each dropped at or beyond MEM_SIZE. -/
def writeBytes (size : Nat) (m : Memory) (a v : Word) : Memory :=
  writeByteInBounds size
    (writeByteInBounds size
      (writeByteInBounds size
        (writeByteInBounds size m a.toNat (byteOfWord v 0))
        (a.toNat + 1) (byteOfWord v 1))
      (a.toNat + 2) (byteOfWord v 2))
    (a.toNat + 3) (byteOfWord v 3)

/-- MemWrite(a, 4, v) (R54). -/
def writeWord (policy : OobWritePolicy) (size : Nat) (m : Memory) (a v : Word) : Memory :=
  match policy with
  | .wholeWord => if a.toNat + 4 ≤ size then writeBytes size m a v else m
  | .perByte => writeBytes size m a v

/-- A word written into a store whose bounds are not in question: the host's load (20_memory.md R66). -/
def storeWord (m : Memory) (a : Nat) (v : Word) : Memory :=
  Memory.write (Memory.write (Memory.write (Memory.write m a (byteOfWord v 0)) (a + 1) (byteOfWord v 1))
    (a + 2) (byteOfWord v 2)) (a + 3) (byteOfWord v 3)

/-- IFetch (R53): the word at an address of the instruction store. -/
def State.fetchWord (s : State) (a : Word) : Word := readWord s.memSize s.imem a

/-- MemRead (R53): the word at an address of the data store. -/
def State.loadWord (s : State) (a : Word) : Word := readWord s.memSize s.dmem a

/-! ### The register file (40_pipeline.md section 4) -/

/-- The stored value of a register; register 0 is a register like any other (10_state.md R22). -/
def Regs.get (x : Regs) (i : Reg) : Word := x[i.toNat]'i.isLt

/-- `x[i] <- v` (40_pipeline.md R122). -/
def Regs.put (x : Regs) (i : Reg) (v : Word) : Regs := x.set i.toNat v i.isLt

/-- The stored value `x[i]`, no bypass (00_scope.md R12). -/
def State.reg (s : State) (i : Reg) : Word := Regs.get s.regs i

/-- The value a MEM/WB latch writes back (40_pipeline.md R135). -/
def MemWb.value (l : MemWb) : Word := if l.memToReg then l.memData else l.aluResult

/-- The register file after a MEM/WB latch's write (R122, R135). -/
def MemWb.writeBack (l : MemWb) (x : Regs) : Regs := if l.regWrite then Regs.put x l.writeReg l.value else x

/-- RFRead(i): the value being written this cycle, else the stored value; index 0 included (R121). -/
def State.rfRead (s : State) (i : Reg) : Word :=
  if s.memWb.regWrite && s.memWb.writeReg == i then s.memWb.value else s.reg i

/-! ### The control unit (40_pipeline.md section 2) -/

/-- Control(opcode): the table of R113, and all lines 0 with alu_op add for an unknown opcode (R114). -/
def controlLines (opcode : BitVec 6) : ControlWord :=
  if opcode = 0x00#6 then { regDst := true, regWrite := true, aluOp := .passthrough }
  else if opcode = 0x08#6 then { aluSrc := true, regWrite := true }
  else if opcode = 0x04#6 then { branch := true, aluOp := .subtract }
  else if opcode = 0x02#6 then { jump := true }
  else if opcode = 0x23#6 then { aluSrc := true, memRead := true, memToReg := true, regWrite := true }
  else if opcode = 0x2B#6 then { aluSrc := true, memWrite := true }
  else if opcode = 0x3F#6 then { terminate := true }
  else {}

/-- `sext_32` of a 16-bit immediate (30_encoding.md R84). -/
def sext (imm : BitVec 16) : Word := imm.signExtend 32

/-- What ID/EX takes from a valid word in IF/ID, with the two values its register reads gave (40_pipeline.md R134). -/
def IdEx.ofWord (w pc4 rd1 rd2 : Word) : IdEx where
  valid  := true
  ctl    := controlLines (opcodeField w)
  pc4    := pc4
  rd1    := rd1
  rd2    := rd2
  imm    := sext (immField w)
  rs     := rsField w
  rt     := rtField w
  rd     := rdField w
  funct  := functField w
  target := targetField w

/-- The branch target (30_encoding.md R84; 40_pipeline.md R130). -/
def branchTarget (pc4 imm : Word) : Word := pc4 + (imm <<< 2)

/-- The jump target: 28 bits, no PC bits (30_encoding.md R85; 40_pipeline.md R131; 90_conflicts.md C1). -/
def jumpTarget (target : BitVec 26) : Word := target.setWidth 32 <<< 2

/-! ### The hazard unit (40_pipeline.md section 5) -/

/-- The comparison of R123 for a load whose destination is `rt`: the raw bits of the word in IF/ID, whatever its opcode and
whether or not it is a bubble, register 0 included. -/
def State.hazardOn (s : State) (rt : Reg) : Bool :=
  rt == rsField s.ifId.instr || rt == rtField s.ifId.instr

/-- HazardStall (R123). -/
def State.hazardStall (s : State) : Bool := s.idEx.ctl.memRead && s.hazardOn s.idEx.rt

/-! ### The clock edge (40_pipeline.md R143) -/

/-- What the EX stage hands to the edge: EX/MEM's next value, the target the PC takes if the instruction in EX redirects
(R132), and whether the hazard unit stalls (R124). -/
structure ExOut where
  exMem    : ExMem
  redirect : Option Word := none
  stall    : Bool := false
deriving DecidableEq, Repr

/-- MEM/WB's next value: the instruction leaving MEM with the word read before this edge's store (R55, R111, R143). -/
def State.memStage (s : State) : MemWb :=
  if s.exMem.valid then
    { valid := true, memToReg := s.exMem.memToReg, regWrite := s.exMem.regWrite,
      memData := s.loadWord s.exMem.aluResult, aluResult := s.exMem.aluResult, writeReg := s.exMem.writeReg }
  else .bubble

/-- The data store after this edge: the store of the instruction in MEM, if it is one (20_memory.md R56; R133). -/
def State.dmemNext (s : State) : Memory :=
  if s.exMem.memWrite then
    writeWord s.params.oobWrite s.memSize s.dmem s.exMem.aluResult s.exMem.storeData
  else s.dmem

/-- The register file after this edge's write port (R122), and, at the edge that halts the machine, after the write of the
instruction that has just entered MEM/WB as well: the halt drain (R141). -/
def State.regsNext (s : State) (halting : Bool) : Regs :=
  let x := s.memWb.writeBack s.regs
  if halting then s.memStage.writeBack x else x

/-- The PC's next value (R137): a redirect takes precedence over a stall. -/
def State.pcNext (s : State) (redirect : Option Word) (stall : Bool) : Word :=
  match redirect with
  | some target => target
  | none => if stall then s.pc else s.pc + 4

/-- IF/ID's next value (R136). -/
def State.ifIdNext (s : State) (redirect : Option Word) (stall : Bool) : IfId :=
  if redirect.isSome then .bubble
  else if stall then s.ifId
  else ⟨true, s.fetchWord s.pc, s.pc + 4⟩

/-- ID/EX's next value (R115, R134). -/
def State.idExNext (s : State) (redirect : Option Word) (stall : Bool) : IdEx :=
  if redirect.isSome || stall || !s.ifId.valid then .bubble
  else IdEx.ofWord s.ifId.instr s.ifId.pc4 (s.rfRead (rsField s.ifId.instr)) (s.rfRead (rtField s.ifId.instr))

/-- The clock edge: every state element takes its next value at once, from pre-edge values only (R111, R143).
A valid instruction entering EX/MEM retires (R138); one with `terminate` halts the machine (R140). -/
def State.edge (s : State) (ex : ExOut) : State :=
  { s with
    pc      := s.pcNext ex.redirect ex.stall
    ifId    := s.ifIdNext ex.redirect ex.stall
    idEx    := s.idExNext ex.redirect ex.stall
    exMem   := ex.exMem
    memWb   := s.memStage
    regs    := s.regsNext ex.exMem.terminate
    dmem    := s.dmemNext
    retired := s.retired + ex.exMem.valid.toNat
    cycles  := s.cycles + 1
    halted  := ex.exMem.terminate }

/-! ### Model faults (60_exceptions.md section 2) -/

/-- The MEM stage's check under MISALIGNED_POLICY = fault (20_memory.md R57; R143). -/
def State.misalignedInMem (s : State) : Bool :=
  decide (s.params.misaligned = .fault) && s.exMem.valid && (s.exMem.memRead || s.exMem.memWrite)
    && s.exMem.aluResult.extractLsb' 0 2 != 0#2

/-- A raise: no state element changes and the fault is what the step answers (60_exceptions.md R205;
notes/assumptions/7.md). -/
def raise (f : Fault) : Result := .fault f

/-- The cycle's outcome once the EX stage is known: the MEM stage's fault comes first, being the older instruction's
(60_exceptions.md R207), then the EX stage's own, then the edge. -/
def State.finishCycle (s : State) (ex : Except Fault ExOut) : Result :=
  if s.misalignedInMem then raise (.misalignedData s.exMem.aluResult)
  else match ex with
    | .error f => raise f
    | .ok out => .next (s.edge out)

end Sys2Proof.Machine
end

