-- ==== Sys2Proof/Machine/Operands.lean ====
section
/-! DEFINITION. The operands of the EX stage: the forwarding unit and its multiplexers (40_pipeline.md sections 6 and 7), and
the forms EX/MEM takes. -/

namespace Sys2Proof.Machine

open Sys2Proof

/-- ForwardSel(src) (40_pipeline.md R125): 2 from EX/MEM, 1 from MEM/WB, 0 from the register-file read; register 0 is never
forwarded. -/
def State.forwardSel (s : State) (src : Reg) : Nat :=
  if s.exMem.regWrite && s.exMem.writeReg != 0#5 && s.exMem.writeReg == src then 2
  else if s.memWb.regWrite && s.memWb.writeReg != 0#5 && s.memWb.writeReg == src then 1
  else 0

/-- Mux3 (R127). -/
def mux3 (sel : Nat) (v0 v1 v2 : Word) : Word := if sel = 0 then v0 else if sel = 1 then v1 else v2

/-- opA (R127): the value of source register `rs`, read in ID as ID/EX.rd1, as it reaches the ALU. -/
def State.opA (s : State) (rs : Reg) : Word :=
  mux3 (s.forwardSel rs) s.idEx.rd1 s.memWb.value s.exMem.aluResult

/-- opB (R126, R127): the value of source register `rt`, read in ID as ID/EX.rd2. A SW stores it. -/
def State.opB (s : State) (rt : Reg) : Word :=
  mux3 (s.forwardSel rt) s.idEx.rd2 s.memWb.value s.exMem.aluResult

/-- Base plus displacement, modulo 2^32: the only addressing mode (42_loadstore.md R172). -/
def State.effectiveAddress (s : State) (rs : Reg) (imm : BitVec 16) : Word :=
  alu (some .add) (s.opA rs) (sext imm)

/-- EX/MEM's next value for an instruction that writes no register and no memory: valid, every line 0. Its ALU result
(of the two operands), store data and destination field are latched all the same (R116, R143). -/
def State.quietExMem (s : State) (fn : AluFn) (rs rt : Reg) : ExMem where
  valid := true
  aluResult := alu (some fn) (s.opA rs) (s.opB rt)
  storeData := s.opB rt
  writeReg := rt

end Sys2Proof.Machine
end

