-- ==== Sys2Proof/Machine/Arith.lean ====
section
/-! DEFINITION. ADD and ADDI (41_alu.md). The meaning of an instruction is its EX cycle (notes/assumptions/1.md). -/

namespace Sys2Proof.Machine

open Sys2Proof

/-- ADD (41_alu.md R161): the sum goes to EX/MEM for register `rd`. -/
def execAdd (rs rt rd : Reg) (s : State) : Result :=
  s.finishCycle (.ok
    { exMem :=
        { valid := true, regWrite := true, aluResult := alu (some .add) (s.opA rs) (s.opB rt),
          storeData := s.opB rt, writeReg := rd } })

/-- ADDI (41_alu.md R162): the sum with the sign-extended immediate goes to EX/MEM for register `rt`. -/
def execAddi (rs rt : Reg) (imm : BitVec 16) (s : State) : Result :=
  s.finishCycle (.ok
    { exMem :=
        { valid := true, regWrite := true, aluResult := alu (some .add) (s.opA rs) (sext imm),
          storeData := s.opB rt, writeReg := rt } })

end Sys2Proof.Machine
end

