-- ==== Sys2Proof/Machine/ControlTransfer.lean ====
section
/-! DEFINITION. BEQ and J (43_control.md). -/

namespace Sys2Proof.Machine

open Sys2Proof

/-- BEQ (43_control.md R180): taken when the ALU's difference is zero (40_pipeline.md R130); a taken branch redirects the PC
and squashes the two younger instructions (R132). -/
def execBeq (rs rt : Reg) (imm : BitVec 16) (s : State) : Result :=
  s.finishCycle (.ok
    { exMem := s.quietExMem .subtract rs rt
      redirect :=
        if zeroOutput (alu (some .subtract) (s.opA rs) (s.opB rt)) then some (branchTarget s.idEx.pc4 (sext imm))
        else none })

/-- J (43_control.md R181): always redirects. Bits [25:21] and [20:16] of the word are still read as registers
(30_encoding.md R83), and what the ALU makes of them goes nowhere (40_pipeline.md R116). -/
def execJ (target : BitVec 26) (s : State) : Result :=
  s.finishCycle (.ok
    { exMem := s.quietExMem .add (target.extractLsb' 21 5) (target.extractLsb' 16 5)
      redirect := some (jumpTarget target) })

end Sys2Proof.Machine
end

