-- ==== Sys2Proof/Machine/Halt.lean ====
section
/-! DEFINITION. HLT, unknown opcodes and unimplemented function codes (44_halt_undefined.md). -/

namespace Sys2Proof.Machine

open Sys2Proof

/-- HLT (44_halt_undefined.md R190): `terminate` enters EX/MEM, which halts the machine at this edge with the halt drain
(40_pipeline.md R140, R141). -/
def execHlt (ignored : BitVec 26) (s : State) : Result :=
  s.finishCycle (.ok
    { exMem :=
        { s.quietExMem .add (ignored.extractLsb' 21 5) (ignored.extractLsb' 16 5) with terminate := true } })

/-- An unknown opcode (44_halt_undefined.md R191): passes through as a valid instruction that writes nothing, and retires. -/
def execUnknownOpcode (rest : BitVec 26) (s : State) : Result :=
  s.finishCycle (.ok { exMem := s.quietExMem .add (rest.extractLsb' 21 5) (rest.extractLsb' 16 5) })

/-- An unimplemented R-type word (44_halt_undefined.md R192): the model fault, with the word's address and its function
code. -/
def execUnimplementedRType (funct : BitVec 6) (s : State) : Result :=
  s.finishCycle (.error (.unimplementedFunct (s.idEx.pc4 - 4) funct))

end Sys2Proof.Machine
end

