-- ==== Sys2Proof/Machine/LoadStore.lean ====
section
/-! DEFINITION. LW and SW (42_loadstore.md). -/

namespace Sys2Proof.Machine

open Sys2Proof

/-- LW (42_loadstore.md R170): the address goes to EX/MEM, to be read in the next cycle, and the next instruction is held
in ID if it names `rt` (40_pipeline.md R123, R124). -/
def execLw (rs rt : Reg) (imm : BitVec 16) (s : State) : Result :=
  s.finishCycle (.ok
    { exMem :=
        { valid := true, memToReg := true, memRead := true, regWrite := true,
          aluResult := s.effectiveAddress rs imm, storeData := s.opB rt, writeReg := rt }
      stall := s.hazardOn rt })

/-- SW (42_loadstore.md R171): the address and the forwarded value of `rt` go to EX/MEM, to be stored in the next cycle. -/
def execSw (rs rt : Reg) (imm : BitVec 16) (s : State) : Result :=
  s.finishCycle (.ok
    { exMem :=
        { valid := true, memWrite := true, aluResult := s.effectiveAddress rs imm,
          storeData := s.opB rt, writeReg := rt } })

end Sys2Proof.Machine
end

