-- ==== Sys2Proof/Machine/Dispatch.lean ====
section
/-! DEFINITION. One arm per instruction: the clock cycle in which the instruction is in EX (notes/assumptions/1.md). -/

namespace Sys2Proof.Machine

open Sys2Proof

def exec (i : Instr) (s : State) : Host.Outcome State Fault Refusal :=
  match i with
  | .add rs rt rd _ => Sys2Proof.Machine.execAdd rs rt rd s
  | .addi rs rt imm => Sys2Proof.Machine.execAddi rs rt imm s
  | .beq rs rt imm => Sys2Proof.Machine.execBeq rs rt imm s
  | .j target => Sys2Proof.Machine.execJ target s
  | .lw rs rt imm => Sys2Proof.Machine.execLw rs rt imm s
  | .sw rs rt imm => Sys2Proof.Machine.execSw rs rt imm s
  | .hlt ignored => Sys2Proof.Machine.execHlt ignored s
  | .unimplementedRType _ _ _ _ funct => Sys2Proof.Machine.execUnimplementedRType funct s
  | .unknownOpcode _ rest => Sys2Proof.Machine.execUnknownOpcode rest s

end Sys2Proof.Machine
end

