-- ==== Sys2Proof/Machine/Pipeline.lean ====
section
/-! DEFINITION. The clock cycle read off the raw latches (40_pipeline.md R143), and which instruction the latch ID/EX holds. -/

namespace Sys2Proof.Machine

open Sys2Proof

/-- The EX stage of R143, from the control lines and fields of ID/EX whatever they are. -/
def State.exStage (s : State) : ExOut :=
  let l := s.idEx
  let opA := s.opA l.rs
  let opB := s.opB l.rt
  let aluB := if l.ctl.aluSrc then l.imm else opB
  let result := alu (aluControl l.ctl.aluOp l.funct) opA aluB
  { exMem :=
      if l.valid then
        { valid := true, memToReg := l.ctl.memToReg, memRead := l.ctl.memRead, memWrite := l.ctl.memWrite,
          regWrite := l.ctl.regWrite, terminate := l.ctl.terminate, aluResult := result, storeData := opB,
          writeReg := if l.ctl.regDst then l.rd else l.rt }
      else .bubble
    redirect :=
      if l.ctl.jump then some (jumpTarget l.target)
      else if l.ctl.branch && zeroOutput result then some (branchTarget l.pc4 l.imm)
      else none
    stall := s.hazardStall }

/-- One clock cycle (R143): the MEM stage's check, the EX stage's check, then the edge. -/
def State.cycle (s : State) : Result :=
  s.finishCycle
    (if s.idEx.valid && (aluControl s.idEx.ctl.aluOp s.idEx.funct).isNone then
      .error (.unimplementedFunct (s.idEx.pc4 - 4) s.idEx.funct)
    else .ok s.exStage)

/-- The opcode a control word stands for (R113). All lines 0 is any unknown opcode (R114): 0x01 stands for them, since
ID/EX does not hold the opcode (notes/assumptions/2.md). -/
def ControlWord.opcode (c : ControlWord) : BitVec 6 :=
  if c.terminate then 0x3F#6
  else if c.jump then 0x02#6
  else if c.branch then 0x04#6
  else if c.memWrite then 0x2B#6
  else if c.memRead then 0x23#6
  else if c.regDst then 0x00#6
  else if c.regWrite then 0x08#6
  else 0x01#6

/-- The word whose opcode and other bits ID/EX holds. -/
def IdEx.word (l : IdEx) : Word := encodeJ l.ctl.opcode l.target

/-- The instruction ID/EX holds, if it holds exactly what ID latches for one (R134): not a bubble, and no mixture of
control lines that no word gives. -/
def IdEx.instr? (l : IdEx) : Option Instr :=
  if l = IdEx.ofWord l.word l.pc4 l.rd1 l.rd2 then some (decodeWord l.word) else none

/-- One cycle of a machine that is running: the meaning of the instruction in EX, or, where EX holds a bubble, the cycle
read off the latches. -/
def State.runCycle (s : State) (meaning : Instr → State → Result) : Result :=
  match s.idEx.instr? with
  | some i => meaning i s
  | none => s.cycle

/-- The host's load of one word at the address the next fetch reads (20_memory.md R66), with the machine as it stands when
that word has been fetched and decoded: the word in ID/EX, the word after it in IF/ID, the PC past both (40_pipeline.md
R134, R136, R137; notes/assumptions/3.md). -/
def State.placeWord (s : State) (w : Word) : State :=
  let loaded : State :=
    { s with imem := storeWord s.imem s.pc.toNat w, memSize := max s.memSize (s.pc.toNat + 4) }
  { loaded with
    pc   := s.pc + 8
    ifId := ⟨true, loaded.fetchWord (s.pc + 4), s.pc + 8⟩
    idEx := IdEx.ofWord w (s.pc + 4) (s.reg (rsField w)) (s.reg (rtField w)) }

end Sys2Proof.Machine
end

