-- ==== Sys2Proof/Machine/Step.lean ====
section
/-! DEFINITION. The step: one clock cycle (00_scope.md R13; 40_pipeline.md R143). -/

namespace Sys2Proof.Machine

open Sys2Proof

/-- One clock cycle. A halted machine takes no further step and nothing changes (10_state.md R36; notes/assumptions/6.md);
one with a recorded fault takes none either (R41; notes/assumptions/7.md). -/
def step (s : State) : Host.Outcome State Fault Refusal :=
  if s.halted then .next s
  else match s.fault with
    | some f => .fault f
    | none => s.runCycle exec

/-- The state in which the very next step runs the table row's word (notes/assumptions/3.md). -/
def State.withFetchWord (s : State) (nbits w : Nat) : State :=
  s.placeWord (BitVec.ofNat 32 (w % 2 ^ nbits))

end Sys2Proof.Machine
end

