-- ==== Sys2Proof/Machine/Assembler.lean ====
section
/-! DEFINITION. The assembly syntax and label resolution (30_encoding.md R90-R92): the spec's own way of writing an instruction,
no part of the machine. -/

namespace Sys2Proof.Machine

open Sys2Proof

/-- A branch or jump operand: a count of words or word index, or the address of a label (R91). -/
inductive AsmTarget where
  | number (n : Int)
  | label (address : Nat)
deriving DecidableEq, Repr

/-- The forms of R90, operands in the order they are written. There are no pseudo-instructions (R92). -/
inductive AsmInstr where
  | add (rd rs rt : Reg)
  | addi (rt rs : Reg) (imm : Int)
  | lw (rt : Reg) (imm : Int) (rs : Reg)
  | sw (rt : Reg) (imm : Int) (rs : Reg)
  | beq (rs rt : Reg) (offset : AsmTarget)
  | j (index : AsmTarget)
  | hlt
deriving DecidableEq, Repr

/-- The offset of a BEQ at address `at'` to a label: a whole number of words in -32768 to 32767 (R91). -/
def labelOffset (at' label : Nat) : Option (BitVec 16) :=
  let d : Int := (label : Int) - ((at' : Int) + 4)
  if d % 4 = 0 ∧ -32768 ≤ d / 4 ∧ d / 4 ≤ 32767 then some (BitVec.ofInt 16 (d / 4)) else none

/-- The word index of a label: a multiple of 4 below 2^28 (R91). -/
def labelIndex (label : Nat) : Option (BitVec 26) :=
  if label % 4 = 0 ∧ label < 2 ^ 28 then some (BitVec.ofNat 26 (label / 4)) else none

/-- The instruction a line at address `at'` stands for; a number gives its low bits, ignored bits are 0 (R90, R91). -/
def assemble (at' : Nat) : AsmInstr → Option Instr
  | .add rd rs rt => some (.add rs rt rd 0)
  | .addi rt rs imm => some (.addi rs rt (BitVec.ofInt 16 imm))
  | .lw rt imm rs => some (.lw rs rt (BitVec.ofInt 16 imm))
  | .sw rt imm rs => some (.sw rs rt (BitVec.ofInt 16 imm))
  | .beq rs rt (.number n) => some (.beq rs rt (BitVec.ofInt 16 n))
  | .beq rs rt (.label l) => (labelOffset at' l).map (.beq rs rt)
  | .j (.number n) => some (.j (BitVec.ofInt 26 n))
  | .j (.label l) => (labelIndex l).map .j
  | .hlt => some (.hlt 0)

/-! ### Reading a line of text (R90) -/

/-- The tokens of a line. -/
inductive AsmToken where
  | word (cs : List Char)
  | comma
  | openParen
  | closeParen
deriving DecidableEq, Repr

/-- A word token, if any characters were gathered for it. -/
def gathered (cs : List Char) (rest : List AsmToken) : List AsmToken :=
  if cs = [] then rest else .word cs.reverse :: rest

/-- The tokens of a line, `cs` being the characters of the word being read, last first. -/
def asmTokens (cs : List Char) : List Char → List AsmToken
  | [] => gathered cs []
  | ' ' :: rest => gathered cs (asmTokens [] rest)
  | ',' :: rest => gathered cs (.comma :: asmTokens [] rest)
  | '(' :: rest => gathered cs (.openParen :: asmTokens [] rest)
  | ')' :: rest => gathered cs (.closeParen :: asmTokens [] rest)
  | c :: rest => asmTokens (c :: cs) rest

/-- A digit in the given base. -/
def digitValue (base : Nat) (c : Char) : Option Nat :=
  let n := c.toNat
  let d := if 48 ≤ n ∧ n ≤ 57 then some (n - 48)
    else if 97 ≤ n ∧ n ≤ 102 then some (n - 87)
    else if 65 ≤ n ∧ n ≤ 70 then some (n - 55)
    else none
  d.filter (· < base)

/-- One or more digits, `acc` the value so far and `seen` whether there was one. -/
def digits (base acc : Nat) (seen : Bool) : List Char → Option Nat
  | [] => if seen then some acc else none
  | c :: rest => (digitValue base c).bind fun d => digits base (base * acc + d) true rest

/-- An unsigned number, decimal or `0x` hexadecimal. -/
def asmNat : List Char → Option Nat
  | '0' :: 'x' :: rest => digits 16 0 false rest
  | cs => digits 10 0 false cs

/-- A number, negative with a leading `-`. -/
def asmInt : List Char → Option Int
  | '-' :: rest => (asmNat rest).map fun n => -(n : Int)
  | cs => (asmNat cs).map fun n => (n : Int)

/-- A register, `R0` to `R31`. -/
def asmReg : List Char → Option Reg
  | 'R' :: rest => ((digits 10 0 false rest).filter (· < 32)).map (BitVec.ofNat 5)
  | _ => none

/-- A branch or jump operand: a number, or a label looked up among the program's labels. -/
def asmTarget (labels : List (List Char × Nat)) (cs : List Char) : Option AsmTarget :=
  match asmInt cs with
  | some n => some (.number n)
  | none => (labels.lookup cs).map .label

/-- One line of assembly (R90). -/
def parseLine (labels : List (List Char × Nat)) (line : List Char) : Option AsmInstr :=
  match asmTokens [] line with
  | [.word ['A', 'D', 'D'], .word d, .comma, .word s, .comma, .word t] => do
    return .add (← asmReg d) (← asmReg s) (← asmReg t)
  | [.word ['A', 'D', 'D', 'I'], .word t, .comma, .word s, .comma, .word imm] => do
    return .addi (← asmReg t) (← asmReg s) (← asmInt imm)
  | [.word ['L', 'W'], .word t, .comma, .word imm, .openParen, .word s, .closeParen] => do
    return .lw (← asmReg t) (← asmInt imm) (← asmReg s)
  | [.word ['S', 'W'], .word t, .comma, .word imm, .openParen, .word s, .closeParen] => do
    return .sw (← asmReg t) (← asmInt imm) (← asmReg s)
  | [.word ['B', 'E', 'Q'], .word s, .comma, .word t, .comma, .word off] => do
    return .beq (← asmReg s) (← asmReg t) (← asmTarget labels off)
  | [.word ['J'], .word target] => do
    return .j (← asmTarget labels target)
  | [.word ['H', 'L', 'T']] => some .hlt
  | _ => none

end Sys2Proof.Machine
end

