-- ==== Sys2Proof/Machine/Driver.lean ====
section
/-! DEFINITION. What the host does to the machine: load, reset, clock, observe, end (60_exceptions.md section 7). -/

namespace Sys2Proof.Machine

open Sys2Proof Sys2Proof.Config

/-- Load and reset: IMEM is the image, MEM_SIZE its length, everything else its reset value (20_memory.md R66;
70_reset_and_hazards.md R230; 60_exceptions.md R217). -/
def State.load (image : List Byte) (params : Params) : State :=
  { State.reset with imem := Memory.ofImage image, memSize := image.length, params := params }

/-- A new reset of a loaded machine: IMEM and the parameters of the run stay (10_state.md R36; 60_exceptions.md R217). -/
def State.resetAgain (s : State) : State :=
  { State.reset with imem := s.imem, memSize := s.memSize, params := s.params }

/-- Why no run starts (60_exceptions.md R219). -/
inductive StartError where
  /-- The image is missing or unreadable: "fatal, reported before simulation starts". -/
  | noImage
deriving DecidableEq, Repr

/-- The start of a run (60_exceptions.md R219). -/
def hostStart (image : Option (List Byte)) (params : Params) : Except StartError State :=
  match image with
  | some bytes => .ok (State.load bytes params)
  | none => .error .noImage

/-- One clock edge as the host sees it: the next state, or, at a raise, the same state with the fault recorded
(60_exceptions.md R205, R218; notes/assumptions/7.md). -/
def State.clock (s : State) : State :=
  match step s with
  | .next t => t
  | .fault f => { s with fault := some f }
  | .refused _ => s

/-- `n` clock edges. -/
def State.clockTimes : Nat → State → State
  | 0, s => s
  | n + 1, s => State.clockTimes n s.clock

/-- How a run ends (60_exceptions.md R219), with the state the host observes. -/
inductive RunEnd where
  | halted (s : State)
  | modelFault (f : Fault) (s : State)
  | nonTerminating (s : State)
deriving DecidableEq, Repr

/-- The host's loop with MAX_CYCLES edges at most (60_exceptions.md R219; notes/assumptions/15.md). -/
def hostRun (maxCycles : Nat) (s : State) : RunEnd :=
  if s.halted then .halted s
  else match s.fault with
    | some f => .modelFault f s
    | none =>
      match maxCycles with
      | 0 => .nonTerminating s
      | n + 1 => hostRun n s.clock

/-- Without MAX_CYCLES, "a program that never halts runs for ever" (60_exceptions.md R219). -/
def State.runsForever (s : State) : Prop :=
  ∀ n, (s.clockTimes n).halted = false ∧ (s.clockTimes n).fault = none

/-- The host's cycles per instruction (60_exceptions.md R212); none before an instruction has retired. -/
def State.cpi (s : State) : Option ℚ :=
  if s.retired = 0 then none else some ((s.cycles : ℚ) / (s.retired : ℚ))

/-- The instruction in EX redirects in this cycle: a J or a taken BEQ (40_pipeline.md R132). -/
def State.redirectNow (s : State) : Bool := s.exStage.redirect.isSome

/-- The hazard unit stalls in this cycle and nothing redirects (40_pipeline.md R124). -/
def State.stallNow (s : State) : Bool := s.hazardStall && !s.redirectNow

/-- In how many of the next `n` cycles an event happens. -/
def State.countCycles (event : State → Bool) : Nat → State → Nat
  | 0, _ => 0
  | n + 1, s => (event s).toNat + State.countCycles event n s.clock

end Sys2Proof.Machine
end

