-- ==== Sys2Proof/Machine/Sequential.lean ====
section
/-! DEFINITION. The one-at-a-time view: the sequential pseudocode of 41_alu.md to 44_halt_undefined.md (41_alu.md R160), and
the architectural state the pipeline stands for in it (40_pipeline.md R150). It is no second machine: `step` does not use it. -/

namespace Sys2Proof.Machine

open Sys2Proof Sys2Proof.Config

/-- The architectural state of R160: the registers and the data store, with the instruction store and the parameters the
pseudocode reads. `pc` is the address of the instruction itself, not the hardware register. -/
structure Arch where
  regs    : Regs
  dmem    : Memory
  imem    : Memory
  memSize : Nat
  params  : Params
  pc      : Word
  halted  : Bool
deriving DecidableEq, Repr

/-- The stored value of a register. -/
def Arch.reg (a : Arch) (i : Reg) : Word := Regs.get a.regs i

/-- A data access of the sequential view, with the model fault of MISALIGNED_POLICY = fault (20_memory.md R57). -/
def Arch.access (a : Arch) (addr : Word) (k : Arch) : Host.Outcome Arch Fault Refusal :=
  if a.params.misaligned = .fault ∧ addr.extractLsb' 0 2 ≠ 0#2 then .fault (.misalignedData addr) else .next k

/-- The next instruction of an instruction that does not transfer control. -/
def Arch.advance (a : Arch) : Arch := { a with pc := a.pc + 4 }

/-- The sequential pseudocode of R161, R162, R170, R171, R180, R181, R190, R191 and R192, its source operands taken through
`src` (40_pipeline.md R150 says what an instruction in the pipeline receives for register 0). -/
def seqExecReading (src : Reg → Word) (i : Instr) (a : Arch) : Host.Outcome Arch Fault Refusal :=
  match i with
  | .add rs rt rd _ => .next { a.advance with regs := Regs.put a.regs rd (src rs + src rt) }
  | .addi rs rt imm => .next { a.advance with regs := Regs.put a.regs rt (src rs + sext imm) }
  | .beq rs rt imm =>
    .next (if src rs = src rt then { a with pc := branchTarget (a.pc + 4) (sext imm) } else a.advance)
  | .j target => .next { a with pc := jumpTarget target }
  | .lw rs rt imm =>
    let addr := src rs + sext imm
    a.access addr { a.advance with regs := Regs.put a.regs rt (readWord a.memSize a.dmem addr) }
  | .sw rs rt imm =>
    let addr := src rs + sext imm
    a.access addr { a.advance with dmem := writeWord a.params.oobWrite a.memSize a.dmem addr (src rt) }
  | .hlt _ => .next { a with halted := true }
  | .unimplementedRType _ _ _ _ funct => .fault (.unimplementedFunct a.pc funct)
  | .unknownOpcode _ _ => .next a.advance

/-- One instruction executed alone, its operands read from the registers as they stand (R160). -/
def seqExec (i : Instr) (a : Arch) : Host.Outcome Arch Fault Refusal := seqExecReading a.reg i a

/-- The instruction at the architectural pc. -/
def Arch.fetched (a : Arch) : Instr := decodeWord (readWord a.memSize a.imem a.pc)

/-- One step of one-at-a-time execution. -/
def seqStep (a : Arch) : Host.Outcome Arch Fault Refusal :=
  if a.halted then .next a else seqExec a.fetched a

/-- `n` instructions executed one at a time; `none` once one of them faults. -/
def seqRun : Nat → Arch → Option Arch
  | 0, a => some a
  | n + 1, a =>
    match seqStep a with
    | .next b => seqRun n b
    | _ => none

/-- The registers an instruction reads as operands (40_pipeline.md R150). -/
def sourceRegs : Instr → List Reg
  | .add rs rt _ _ => [rs, rt]
  | .addi rs _ _ => [rs]
  | .beq rs rt _ => [rs, rt]
  | .j _ => []
  | .lw rs _ _ => [rs]
  | .sw rs rt _ => [rs, rt]
  | .hlt _ => []
  | .unimplementedRType _ _ _ _ _ => []
  | .unknownOpcode _ _ => []

/-- The register an instruction writes (10_state.md R23). -/
def destinationReg : Instr → Option Reg
  | .add _ _ rd _ => some rd
  | .addi _ rt _ => some rt
  | .beq _ _ _ => none
  | .j _ => none
  | .lw _ rt _ => some rt
  | .sw _ _ _ => none
  | .hlt _ => none
  | .unimplementedRType _ _ _ _ _ => none
  | .unknownOpcode _ _ => none

/-! ### What the pipeline stands for -/

/-- What an EX/MEM latch will write back: the word the data store holds at its address for a load, else its ALU result. -/
def State.exMemValue (s : State) : Word :=
  if s.exMem.memToReg then s.loadWord s.exMem.aluResult else s.exMem.aluResult

/-- The registers once the instructions in MEM and WB, which have retired, have written theirs. -/
def State.archRegs (s : State) : Regs :=
  let x := s.memWb.writeBack s.regs
  if s.exMem.regWrite then Regs.put x s.exMem.writeReg s.exMemValue else x

/-- The address of the oldest instruction that has not retired: the one in EX, else the one in ID, else the one fetched
next. -/
def State.archPc (s : State) : Word :=
  if s.idEx.valid then s.idEx.pc4 - 4 else if s.ifId.valid then s.ifId.pc4 - 4 else s.pc

/-- The architectural state after every retired instruction. -/
def State.arch (s : State) : Arch where
  regs    := s.archRegs
  dmem    := s.dmemNext
  imem    := s.imem
  memSize := s.memSize
  params  := s.params
  pc      := s.archPc
  halted  := s.halted

/-- The value the instruction in EX receives for a source register: the newest value, but for register 0, which is never
forwarded, the stored one (40_pipeline.md R150; 70_reset_and_hazards.md R237). -/
def State.received (s : State) (r : Reg) : Word := if r = 0#5 then s.reg 0 else s.arch.reg r

/-- No instruction in MEM or WB is about to write register 0 (40_pipeline.md R150). -/
def State.noPendingZeroWrite (s : State) : Bool :=
  !(s.exMem.regWrite && s.exMem.writeReg == 0#5) && !(s.memWb.regWrite && s.memWb.writeReg == 0#5)

end Sys2Proof.Machine
end

