-- ==== Sys2Proof/Safety.lean ====
section
/-! DEFINITION. What counts as a safe run, and the invariants of the machine that rule out states no run reaches. -/

namespace Sys2Proof.Machine

open Sys2Proof

/-- The machine takes its next step: it has not halted and no fault is recorded (10_state.md R36, R41). -/
abbrev State.Running (s : State) : Prop := s.halted = false ∧ s.fault = none

/-- A run records no fault, ever: "a claim about a program holds only for runs that record no fault" (60_exceptions.md R205). -/
def State.Safe (s : State) : Prop := ∀ n, (s.clockTimes n).fault = none

/-- The word `w` is in EX: ID/EX holds what ID latches for it (40_pipeline.md R134). -/
abbrev State.InEx (s : State) (w : Word) : Prop := s.idEx = IdEx.ofWord w s.idEx.pc4 s.idEx.rd1 s.idEx.rd2

/-- A multiple of 4. -/
def aligned (a : Word) : Bool := a.extractLsb' 0 2 == 0#2

/-- Both stores are in their canonical form and list no byte at or beyond MEM_SIZE (20_memory.md R60). -/
abbrev State.MemoryCanonical (s : State) : Prop :=
  Memory.wf s.imem = true ∧ Memory.wf s.dmem = true ∧
    Memory.within s.memSize s.imem = true ∧ Memory.within s.memSize s.dmem = true

/-- The PC is a multiple of 4 (10_state.md R42), and so is every PC+4 a latch carries, from which a branch computes its
target. -/
abbrev State.PcAligned (s : State) : Prop :=
  aligned s.pc = true ∧ aligned s.ifId.pc4 = true ∧ aligned s.idEx.pc4 = true

/-- The latches stand to one another, to the stores and to the registers as the pipeline's rules leave them. -/
structure State.Coherent (s : State) : Prop where
  /-- An invalid latch is a bubble (10_state.md R31). -/
  ifIdBubble : s.ifId.valid = false → s.ifId = IfId.bubble
  idExBubble : s.idEx.valid = false → s.idEx = IdEx.bubble
  exMemBubble : s.exMem.valid = false → s.exMem = ExMem.bubble
  memWbBubble : s.memWb.valid = false → s.memWb = MemWb.bubble
  /-- IF/ID holds the word of the address it was fetched from (40_pipeline.md R136). -/
  fetched : s.ifId.valid = true → s.ifId.instr = s.fetchWord (s.ifId.pc4 - 4)
  /-- ID/EX holds what ID latches for the word of its address (R134). -/
  decoded : s.idEx.valid = true → s.InEx (s.fetchWord (s.idEx.pc4 - 4))
  /-- The values read in ID, bypass included, are what the register file stores one cycle later (R121, R122). -/
  reads : s.halted = false → s.idEx.valid = true → s.idEx.rd1 = s.reg s.idEx.rs ∧ s.idEx.rd2 = s.reg s.idEx.rt
  /-- The instruction behind the one in EX is in ID (R136). -/
  inOrder : s.idEx.valid = true → s.ifId.valid = true ∧ s.ifId.pc4 = s.idEx.pc4 + 4
  /-- The PC is one word past the instruction in ID (R137). -/
  pcNext : s.ifId.valid = true → s.pc = s.ifId.pc4
  /-- The instruction in EX does not name the destination of a load in MEM (R123, R151). -/
  loadUse : s.exMem.memToReg = true → s.idEx.valid = true →
    s.exMem.writeReg ≠ s.idEx.rs ∧ s.exMem.writeReg ≠ s.idEx.rt
  /-- The MEM stage's lines are those of one control word (R113). -/
  memLines : s.exMem.memRead = s.exMem.memToReg ∧ (s.exMem.memToReg = true → s.exMem.regWrite = true) ∧
    (s.exMem.memRead = true → s.exMem.memWrite = false)
  /-- A halted machine has its HLT in EX/MEM (R140). -/
  haltInMem : s.halted = s.exMem.terminate
  /-- An instruction that halts the machine writes nothing (R113). -/
  haltQuiet : s.exMem.terminate = true → s.exMem.regWrite = false ∧ s.exMem.memWrite = false ∧ s.exMem.memRead = false

/-- The instruction `i` is in EX of a running machine whose latches stand together, and the instruction in MEM raises
nothing. Its cycle may also stall or squash younger instructions; those have had no effect yet. -/
structure State.Executing (s : State) (i : Instr) : Prop where
  coherent : s.Coherent
  running  : s.Running
  inEx     : s.InEx (encode i)
  noRaise  : s.misalignedInMem = false

/-- What no instruction changes in the cycle that retires it, and the two counters. -/
structure State.RetiresInto (s t : State) : Prop where
  imem    : t.imem = s.imem
  memSize : t.memSize = s.memSize
  params  : t.params = s.params
  fault   : t.fault = s.fault
  retired : t.retired = s.retired + 1
  cycles  : t.cycles = s.cycles + 1

end Sys2Proof.Machine
end

