-- ==== Sys2Proof/Certificates/Slice0/Obligations.lean ====
section
/-! DEFINITION. The statements about this model. Each docstring names the rule of spec/ it formalises. A statement over every
state holds in states no run reaches too; where it needs the latches to stand together it takes `State.Coherent`, which
`StepKeepsCoherent` and `CoherentAfterLoad` show of every run. -/

open Sys2Proof Sys2Proof.Machine

/-! ### Encoding -/

/-- Words of every row, their decoding written out in spec/95_test_vectors.md section 2.2. -/
def Obligations.SampleWordsDecode : Prop :=
  decodeWord 0x00221820 = .add 1 2 3 0 ∧
  decodeWord 0x000007E0 = .add 0 0 0 31 ∧
  decodeWord 0x2021FFFF = .addi 1 1 0xFFFF ∧
  decodeWord 0x1000FFFF = .beq 0 0 0xFFFF ∧
  decodeWord 0x0BFFFFFF = .j 0x3FFFFFF ∧
  decodeWord 0x8C22FFFC = .lw 1 2 0xFFFC ∧
  decodeWord 0xAC21FFF8 = .sw 1 1 0xFFF8 ∧
  decodeWord 0xFC000000 = .hlt 0 ∧
  decodeWord 0xFFFFFFFF = .hlt 0x3FFFFFF ∧
  decodeWord 0x00000000 = .unimplementedRType 0 0 0 0 0 ∧
  decodeWord 0x00221822 = .unimplementedRType 1 2 3 0 0x22 ∧
  decodeWord 0x04000000 = .unknownOpcode 0x01 0 ∧
  decodeWord 0xF8000000 = .unknownOpcode 0x3E 0

/-- Decoding an encoded well-formed instruction gives it back, every operand at every value (30_encoding.md R82, R86-R88). -/
def Obligations.DecodeInvertsEncode : Prop :=
  ∀ i : Instr, i.wellFormed = true → decodeWord (encode i) = i

/-- Every one of the 2^32 words is exactly one well-formed instruction, and encoding it gives the word back: no encoding is
refused and no bit is dropped (30_encoding.md R87-R89). -/
def Obligations.EveryWordIsOneInstruction : Prop :=
  ∀ w : Word, (decodeWord w).wellFormed = true ∧ encode (decodeWord w) = w

/-- The bytes of an instruction as the store holds them, first byte lowest, decode to it, and what follows them is left
over; fewer than four bytes are refused by name (30_encoding.md R80; 20_memory.md R51). -/
def Obligations.InstructionsAreFourLittleEndianBytes : Prop :=
  (∀ (w : Word) (rest : List Byte), decode (bytesOfWord w ++ rest) = .ok (decodeWord w, rest)) ∧
  ∀ bytes : List Byte, bytes.length < 4 → decode bytes = .error .truncated

/-! ### The units of the datapath -/

/-- The control unit's table, and all lines 0 with alu_op add for every other opcode (40_pipeline.md R113, R114). -/
def Obligations.ControlUnitTable : Prop :=
  controlLines 0x00 = { regDst := true, regWrite := true, aluOp := .passthrough } ∧
  controlLines 0x08 = { aluSrc := true, regWrite := true, aluOp := .add } ∧
  controlLines 0x04 = { branch := true, aluOp := .subtract } ∧
  controlLines 0x02 = { jump := true, aluOp := .add } ∧
  controlLines 0x23 = { memToReg := true, memRead := true, aluSrc := true, regWrite := true, aluOp := .add } ∧
  controlLines 0x2B = { memWrite := true, aluSrc := true, aluOp := .add } ∧
  controlLines 0x3F = { terminate := true, aluOp := .add } ∧
  ∀ opcode : BitVec 6, opcode ∉ knownOpcodes →
    controlLines opcode = ⟨false, false, false, false, false, false, false, false, false, .add⟩

/-- ALU control (40_pipeline.md R118); the ALU's zero output is 1 exactly when its result is 0, and for a subtraction exactly
when the operands are equal (R120). -/
def Obligations.AluControlAndZeroOutput : Prop :=
  (∀ funct, aluControl .add funct = some .add ∧ aluControl .subtract funct = some .subtract ∧
    aluControl .passthrough funct = if funct = 0x20 then some .add else none) ∧
  (∀ (fn : AluFn) (a b : Word), zeroOutput (alu (some fn) a b) = true ↔ alu (some fn) a b = 0) ∧
  ∀ a b : Word, zeroOutput (alu (some .subtract) a b) = true ↔ a = b

/-- A read port gives the value being written in its cycle, index 0 included, and the stored value otherwise; ID reads its
two registers through it (40_pipeline.md R121). -/
def Obligations.ReadPortSeesTheWriteOfItsCycle : Prop :=
  (∀ (s : State) (i : Reg),
    s.rfRead i = if s.memWb.regWrite = true ∧ s.memWb.writeReg = i then s.memWb.value else s.reg i) ∧
  ∀ s t : State, s.Running → step s = .next t → t.idEx.valid = true →
    t.idEx.rd1 = s.rfRead (s.ifId.instr.extractLsb' 21 5) ∧ t.idEx.rd2 = s.rfRead (s.ifId.instr.extractLsb' 16 5)

/-- Register 0 is stored and read like any other, and is never forwarded (10_state.md R22). -/
def Obligations.RegisterZeroIsStoredAndNeverForwarded : Prop :=
  (∀ (x : Regs) (v : Word), Regs.get (Regs.put x 0 v) 0 = v) ∧ ∀ s : State, s.forwardSel 0 = 0

/-- The forwarding unit's choice: the producer in EX/MEM first, then the one in MEM/WB, register 0 never; the value the
choice gives, and that the ALU's first operand in EX is the value it gives for `ID/EX.rs` (40_pipeline.md R125). -/
def Obligations.ForwardingPriority : Prop :=
  ∀ (s : State) (src : Reg),
    (s.forwardSel src = 2 ↔ s.exMem.regWrite = true ∧ s.exMem.writeReg ≠ 0 ∧ s.exMem.writeReg = src) ∧
    (s.forwardSel src = 1 ↔ s.memWb.regWrite = true ∧ s.memWb.writeReg ≠ 0 ∧ s.memWb.writeReg = src ∧
      ¬(s.exMem.regWrite = true ∧ s.exMem.writeReg = src)) ∧
    (s.forwardSel src = 0 ∨ s.forwardSel src = 1 ∨ s.forwardSel src = 2) ∧
    s.opA src = (if s.forwardSel src = 2 then s.exMem.aluResult
      else if s.forwardSel src = 1 then s.memWb.value else s.idEx.rd1) ∧
    ∀ t : State, s.Running → step s = .next t → s.idEx.valid = true → s.idEx.ctl.aluSrc = true →
      t.exMem.aluResult = alu (aluControl s.idEx.ctl.aluOp s.idEx.funct) (s.opA s.idEx.rs) s.idEx.imm

/-- Every branch target is a multiple of 4 when the branch's own PC+4 is, and every jump target is one, below 2^28
(the spec's own inference, 43_control.md R183, from 30_encoding.md R84, R85). -/
def Obligations.ControlTargetsAreAligned : Prop :=
  (∀ pc4 imm : Word, aligned pc4 = true → aligned (branchTarget pc4 imm) = true) ∧
  ∀ target : BitVec 26, aligned (jumpTarget target) = true ∧ (jumpTarget target).toNat = 4 * target.toNat

/-! ### The stores -/

/-- Byte k of the word read at an address is the store's byte there, or 0 at or beyond MEM_SIZE, the index not wrapping; a
fetch reads the instruction store so and the MEM stage the data store (20_memory.md R53). -/
def Obligations.BytesReadFromAStore : Prop :=
  (∀ (size : Nat) (m : Memory) (a : Word) (k : Nat), k < 4 →
    byteOfWord (readWord size m a) k = if a.toNat + k < size then Memory.read m (a.toNat + k) else 0) ∧
  ∀ (s : State) (a : Word),
    s.fetchWord a = readWord s.memSize s.imem a ∧ s.loadWord a = readWord s.memSize s.dmem a

/-- After a word is written, each byte of the store is: byte k of the word at a + k, if the policy's bounds check passes for
it, and the byte it was everywhere else; the store in MEM happens at the edge, and one that is dropped raises nothing
(20_memory.md R54). -/
def Obligations.BytesWrittenToAStore : Prop :=
  (∀ (size : Nat) (m : Memory) (a v : Word), Memory.wf m = true →
    (∀ b : Nat, Memory.read (writeWord .wholeWord size m a v) b =
      if a.toNat ≤ b ∧ b < a.toNat + 4 ∧ a.toNat + 4 ≤ size then byteOfWord v (b - a.toNat) else Memory.read m b) ∧
    (∀ b : Nat, Memory.read (writeWord .perByte size m a v) b =
      if a.toNat ≤ b ∧ b < a.toNat + 4 ∧ b < size then byteOfWord v (b - a.toNat) else Memory.read m b)) ∧
  ∀ s : State, s.Running → s.exMem.memWrite = true → s.params.misaligned = .bytewise →
    (s.idEx.valid = true → s.idEx.ctl.aluOp ≠ .passthrough) →
    ∃ t : State, step s = .next t ∧
      t.dmem = writeWord s.params.oobWrite s.memSize s.dmem s.exMem.aluResult s.exMem.storeData

/-- In a store of at most 2^32 bytes, the bytes of an access that would lie at 2^32 or beyond read as 0 and are not written,
and the low bytes of the store are not touched in their place (20_memory.md, the byte index; 92_eei_decisions.md D21). -/
def Obligations.AccessesDoNotWrapAtTheTop : Prop :=
  ∀ (policy : Config.OobWritePolicy) (size : Nat) (m : Memory) (a v : Word) (k : Nat),
    size ≤ 2 ^ 32 → Memory.wf m = true → k < 4 → 2 ^ 32 ≤ a.toNat + k →
    byteOfWord (readWord size m a) k = 0 ∧
      ∀ b : Nat, b < a.toNat → Memory.read (writeWord policy size m a v) b = Memory.read m b

/-- The store of an instruction in MEM is seen by the read of the next cycle; a bubble in MEM stores nothing
(20_memory.md R56). -/
def Obligations.StoreIsSeenByTheNextRead : Prop :=
  ∀ s t : State, s.Running → step s = .next t →
    (s.exMem.memWrite = true →
      t.dmem = writeWord s.params.oobWrite s.memSize s.dmem s.exMem.aluResult s.exMem.storeData) ∧
    (s.exMem.memWrite = true → s.MemoryCanonical → s.exMem.aluResult.toNat + 4 ≤ s.memSize →
      t.loadWord s.exMem.aluResult = s.exMem.storeData) ∧
    (s.exMem = ExMem.bubble → t.dmem = s.dmem)

/-- No step changes what any fetch reads: a store reaches the data store only (20_memory.md R65). -/
def Obligations.StoresNeverChangeFetch : Prop :=
  ∀ s t : State, step s = .next t → t.imem = s.imem ∧ ∀ a : Word, t.fetchWord a = s.fetchWord a

/-! ### The clock edge -/

/-- The next value of the PC and of IF/ID: a redirect first, then a stall, else the word at the PC and PC+4; a word at or
beyond MEM_SIZE is 0, and an instruction (40_pipeline.md R136, R137). -/
def Obligations.NextPcAndFetchLatch : Prop :=
  (∀ (s : State) (a : Word), s.memSize ≤ a.toNat → s.fetchWord a = 0) ∧
  ∀ s t : State, s.Running → step s = .next t →
    t.pc = (if s.redirectNow then
        (if s.idEx.ctl.jump then jumpTarget s.idEx.target else branchTarget s.idEx.pc4 s.idEx.imm)
      else if s.hazardStall then s.pc else s.pc + 4) ∧
    t.ifId = (if s.redirectNow then IfId.bubble
      else if s.hazardStall then s.ifId else ⟨true, s.fetchWord s.pc, s.pc + 4⟩)

/-- The next value of ID/EX: a bubble on a redirect, a stall or a bubble in IF/ID, else the decoded word with its two
register reads (40_pipeline.md R115, R134). -/
def Obligations.NextDecodeLatch : Prop :=
  ∀ s t : State, s.Running → step s = .next t →
    t.idEx =
      if s.redirectNow = true ∨ s.hazardStall = true ∨ s.ifId.valid = false then IdEx.bubble
      else
        { valid := true, ctl := controlLines (s.ifId.instr.extractLsb' 26 6), pc4 := s.ifId.pc4,
          rd1 := s.rfRead (s.ifId.instr.extractLsb' 21 5), rd2 := s.rfRead (s.ifId.instr.extractLsb' 16 5),
          imm := (s.ifId.instr.extractLsb' 0 16).signExtend 32, rs := s.ifId.instr.extractLsb' 21 5,
          rt := s.ifId.instr.extractLsb' 16 5, rd := s.ifId.instr.extractLsb' 11 5,
          funct := s.ifId.instr.extractLsb' 0 6, target := s.ifId.instr.extractLsb' 0 26 }

/-- A valid instruction entering EX/MEM retires, a bubble does not, and every edge is a cycle (40_pipeline.md R138, R139). -/
def Obligations.CountersAdvance : Prop :=
  ∀ s t : State, s.Running → step s = .next t →
    t.exMem.valid = s.idEx.valid ∧ t.retired = s.retired + (if s.idEx.valid then 1 else 0) ∧ t.cycles = s.cycles + 1

/-- The write port stores one register, index 0 like any other; at the edge that halts the machine the instruction that has
just entered MEM/WB then writes its own (40_pipeline.md R122, R141). -/
def Obligations.WritePortAndHaltDrain : Prop :=
  ∀ s t : State, s.Running → step s = .next t →
    (t.halted = false → ∀ r : Reg,
      t.reg r = if s.memWb.regWrite = true ∧ s.memWb.writeReg = r then s.memWb.value else s.reg r) ∧
    (t.halted = true → ∀ r : Reg,
      t.reg r = if t.memWb.regWrite = true ∧ t.memWb.writeReg = r then
          (if t.memWb.memToReg then t.memWb.memData else t.memWb.aluResult)
        else if s.memWb.regWrite = true ∧ s.memWb.writeReg = r then s.memWb.value else s.reg r)

/-- The machine is not halted at reset; it halts at the edge at which a valid instruction with terminate enters EX/MEM; once
halted no edge changes anything, and only a new reset clears it (10_state.md R36; 40_pipeline.md R140). -/
def Obligations.HaltTakesEffectAndStays : Prop :=
  State.reset.halted = false ∧
  (∀ s t : State, s.Running → step s = .next t →
    (t.halted = true ↔ t.exMem.terminate = true) ∧
    (t.halted = true ↔ s.idEx.valid = true ∧ s.idEx.ctl.terminate = true)) ∧
  ∀ s : State, s.halted = true → (∀ n, s.clockTimes n = s) ∧ s.resetAgain.halted = false

/-- A load in EX whose destination is named by bits [25:21] or [20:16] of the word in IF/ID, whatever that word is, holds the
PC and IF/ID and puts a bubble into ID/EX, while EX/MEM, MEM/WB, the registers and the data store go on; the word held in
IF/ID is decoded in the next cycle with fresh register reads (40_pipeline.md R123, R124). -/
def Obligations.LoadUseStallHoldsFetchAndDecode : Prop :=
  ∀ s t : State, s.Running → step s = .next t →
    (s.hazardStall = true ↔ s.idEx.ctl.memRead = true ∧
      (s.idEx.rt = s.ifId.instr.extractLsb' 21 5 ∨ s.idEx.rt = s.ifId.instr.extractLsb' 16 5)) ∧
    (s.hazardStall = true → s.redirectNow = false →
      t.pc = s.pc ∧ t.ifId = s.ifId ∧ t.idEx = IdEx.bubble ∧
      t.exMem = s.exStage.exMem ∧ t.memWb = s.memStage ∧ t.regs = s.regsNext t.halted ∧ t.dmem = s.dmemNext ∧
      ∀ u : State, s.ifId.valid = true → t.halted = false → step t = .next u →
        u.idEx = IdEx.ofWord s.ifId.instr s.ifId.pc4 (t.rfRead (rsField s.ifId.instr))
          (t.rfRead (rtField s.ifId.instr)))

/-- A J, or a BEQ whose forwarded operands differ by zero, takes the PC to its target and turns the two younger instructions
into bubbles, which never retire, while it goes on into EX/MEM itself; the next word to enter EX is the target's
(40_pipeline.md R132). -/
def Obligations.RedirectSquashesTheTwoYounger : Prop :=
  ∀ s t : State, s.Running → step s = .next t →
    (s.redirectNow = true ↔ s.idEx.ctl.jump = true ∨ (s.idEx.ctl.branch = true ∧
      zeroOutput (alu (aluControl s.idEx.ctl.aluOp s.idEx.funct) (s.opA s.idEx.rs)
        (if s.idEx.ctl.aluSrc then s.idEx.imm else s.opB s.idEx.rt)) = true)) ∧
    (s.redirectNow = true →
      t.pc = (if s.idEx.ctl.jump then jumpTarget s.idEx.target else branchTarget s.idEx.pc4 s.idEx.imm) ∧
      t.ifId = IfId.bubble ∧ t.idEx = IdEx.bubble ∧ t.exMem.valid = s.idEx.valid ∧
      ∀ u v : State, t.halted = false → step t = .next u → step u = .next v →
        u.retired = t.retired ∧ v.retired = t.retired ∧
        v.idEx = IdEx.ofWord (s.fetchWord t.pc) (t.pc + 4) (u.rfRead (rsField (s.fetchWord t.pc)))
          (u.rfRead (rtField (s.fetchWord t.pc))))

/-! ### Model faults -/

/-- What a running machine's step raises: the misaligned access of the instruction in MEM first, else the function code of a
valid R-type word in EX, and nothing else; a HLT's own cycle raises no fault of its own (60_exceptions.md R206, R207). -/
def Obligations.CycleFaultsOldestFirst : Prop :=
  (∀ (s : State) (f : Fault), s.Running → (step s = .fault f ↔
    (s.misalignedInMem = true ∧ f = .misalignedData s.exMem.aluResult) ∨
    (s.misalignedInMem = false ∧ s.idEx.valid = true ∧ s.idEx.ctl.aluOp = .passthrough ∧ s.idEx.funct ≠ 0x20 ∧
      f = .unimplementedFunct (s.idEx.pc4 - 4) s.idEx.funct))) ∧
  (∀ s : State, s.misalignedInMem = true ↔
    s.params.misaligned = .fault ∧ s.exMem.valid = true ∧ (s.exMem.memRead = true ∨ s.exMem.memWrite = true) ∧
      s.exMem.aluResult.toNat % 4 ≠ 0) ∧
  ∀ (s : State) (z : BitVec 26) (address : Word) (funct : BitVec 6),
    exec (.hlt z) s ≠ .fault (.unimplementedFunct address funct)

/-- At a raise no state element changes but the fault record, which is set, and the machine takes no further step
(60_exceptions.md R205). -/
def Obligations.RaiseRecordsTheFaultAndStops : Prop :=
  ∀ (s : State) (f : Fault), s.Running → step s = .fault f →
    s.clock = { s with fault := some f } ∧ ∀ n, s.clock.clockTimes n = s.clock

/-- Under the bytewise policy no access is misaligned, and the access in MEM moves the four bytes starting at its address,
whatever that is; under the fault policy a valid LW or SW in MEM at an address that is
not a multiple of 4 is the fault, whatever is in EX (20_memory.md R57). -/
def Obligations.MisalignedAccessByPolicy : Prop :=
  (∀ s : State, s.params.misaligned = .bytewise → s.misalignedInMem = false ∧
    (∀ address : Word, s.Running → step s ≠ .fault (.misalignedData address)) ∧
    ∀ t : State, s.Running → step s = .next t → s.exMem.valid = true →
      t.memWb.memData = readWord s.memSize s.dmem s.exMem.aluResult ∧
      (s.exMem.memWrite = true →
        t.dmem = writeWord s.params.oobWrite s.memSize s.dmem s.exMem.aluResult s.exMem.storeData)) ∧
  ∀ s : State, s.Running → s.params.misaligned = .fault → s.exMem.valid = true →
    (s.exMem.memRead = true ∨ s.exMem.memWrite = true) → aligned s.exMem.aluResult = false →
    step s = .fault (.misalignedData s.exMem.aluResult)

/-! ### Reset and the invariants -/

/-- Reset: every element at the value of 70_reset_and_hazards.md R230, IMEM holding the image and MEM_SIZE its length. -/
def Obligations.ResetState : Prop :=
  ∀ (image : List Byte) (params : Config.Params),
    let s := State.load image params
    (∀ r : Reg, s.reg r = 0) ∧ s.pc = 0 ∧ s.ifId = IfId.bubble ∧ s.idEx = IdEx.bubble ∧ s.exMem = ExMem.bubble ∧
    s.memWb = MemWb.bubble ∧ (∀ a : Nat, Memory.read s.dmem a = 0) ∧ s.retired = 0 ∧ s.cycles = 0 ∧
    s.halted = false ∧ s.fault = none ∧ (∀ a : Nat, Memory.read s.imem a = image.getD a 0) ∧ s.memSize = image.length

/-- The stores of the reset machine and of any loaded machine are in canonical form. -/
def Obligations.ResetMemoryCanonical : Prop :=
  State.reset.MemoryCanonical ∧
  ∀ (image : List Byte) (params : Config.Params), (State.load image params).MemoryCanonical

/-- From every state with canonical stores, every step keeps them canonical and below MEM_SIZE. -/
def Obligations.StepKeepsMemoryCanonical : Prop :=
  ∀ s t : State, s.MemoryCanonical → step s = .next t → t.MemoryCanonical

/-- The PC is a multiple of 4: at reset, and after every step from a state in which it and the PC+4 of the latches are
(the spec's own inference, 10_state.md R42). -/
def Obligations.PcStaysAligned : Prop :=
  State.reset.PcAligned ∧ (∀ (image : List Byte) (params : Config.Params), (State.load image params).PcAligned) ∧
  ∀ s t : State, s.PcAligned → step s = .next t → t.PcAligned

/-- The latches of the reset machine and of any loaded machine stand together. -/
def Obligations.CoherentAfterLoad : Prop :=
  State.reset.Coherent ∧ ∀ (image : List Byte) (params : Config.Params), (State.load image params).Coherent

/-- From every state whose latches stand together, every step leaves them standing together. -/
def Obligations.StepKeepsCoherent : Prop :=
  ∀ s t : State, s.Coherent → step s = .next t → t.Coherent

/-! ### Hazards -/

/-- The operands of the instruction in EX are the newest values of its registers, forwarded where the register file does not
hold them yet; only register 0 can be old, and then it is the stored x[0], and it is the newest value unless an instruction
in MEM or WB is about to write it (70_reset_and_hazards.md section 2; 40_pipeline.md section 12). -/
def Obligations.OperandsAreNewestButRegisterZero : Prop :=
  ∀ s : State, s.Coherent → s.Running → s.idEx.valid = true →
    s.opA s.idEx.rs = s.received s.idEx.rs ∧ s.opB s.idEx.rt = s.received s.idEx.rt ∧
    (∀ r : Reg, r ≠ 0 → s.received r = s.arch.reg r) ∧ s.received 0 = s.reg 0 ∧
    (s.noPendingZeroWrite = true → s.received 0 = s.arch.reg 0)

/-- A stall and a redirect never fall in one cycle, and in the two cycles after a redirect EX holds bubbles and there is
neither (the spec's own inference, 40_pipeline.md R152). -/
def Obligations.NoStallWithRedirect : Prop :=
  (∀ s : State, s.Coherent → ¬(s.hazardStall = true ∧ s.redirectNow = true)) ∧
  ∀ s t u : State, s.Coherent → s.Running → s.redirectNow = true → step s = .next t → step t = .next u →
    t.idEx = IdEx.bubble ∧ u.idEx = IdEx.bubble ∧
    t.hazardStall = false ∧ t.redirectNow = false ∧ u.hazardStall = false ∧ u.redirectNow = false

/-- The address of a load in MEM is never forwarded to the instruction in EX. A stalled consumer waits one cycle, not two,
and when it reaches EX its operand is the loaded word, taken from MEM/WB, unless the load's destination is register 0,
which is not forwarded (the spec's own inference, 40_pipeline.md R151). -/
def Obligations.LoadedWordReachesItsConsumer : Prop :=
  (∀ s : State, s.Coherent → s.idEx.valid = true → s.exMem.memToReg = true →
    s.forwardSel s.idEx.rs ≠ 2 ∧ s.forwardSel s.idEx.rt ≠ 2) ∧
  ∀ s t u : State, s.Coherent → s.Running → s.stallNow = true → step s = .next t → step t = .next u →
    t.hazardStall = false ∧ u.idEx.valid = true ∧ u.idEx.pc4 = s.ifId.pc4 ∧
    u.memWb.memToReg = true ∧ u.memWb.writeReg = s.idEx.rt ∧
    (s.idEx.rt ≠ 0 → u.forwardSel s.idEx.rt = 1 ∧ u.opA s.idEx.rt = u.memWb.memData ∧
      u.opB s.idEx.rt = u.memWb.memData) ∧
    (s.idEx.rt = 0 → u.forwardSel s.idEx.rt = 0)

/-! ### Each instruction

That `exec i` is the clock cycle in which `i` is in EX is the model's own reading of the spec (notes/assumptions/1.md), and so
these statements are derived, the rules they rest on named by their sections. -/

/-- Whatever the state, an instruction in EX completes its cycle and retires, unless the instruction in MEM raises a fault or
it is an unimplemented R-type word. The older instructions act as in every cycle.
`exec` is the EX cycle (notes/assumptions/1.md). -/
def Obligations.EveryInstructionCompletes : Prop :=
  ∀ (i : Instr) (s : State), s.misalignedInMem = false →
    (∀ rs rt rd z funct, i ≠ .unimplementedRType rs rt rd z funct) →
    ∃ t : State, exec i s = .next t ∧ s.RetiresInto t ∧ t.exMem.valid = true ∧
      t.memWb = s.memStage ∧ t.dmem = s.dmemNext ∧ t.regs = s.regsNext t.halted

/-- An unimplemented R-type word is the model fault with its address and function code, whatever its other fields; only an
older instruction's fault comes before it (44_halt_undefined.md, unimplemented R-type function codes).
`exec` is the EX cycle (notes/assumptions/1.md). -/
def Obligations.UnimplementedRTypeFaults : Prop :=
  ∀ (s : State) (rs rt rd : Reg) (z : BitVec 5) (funct : BitVec 6),
    exec (.unimplementedRType rs rt rd z funct) s =
      if s.misalignedInMem then .fault (.misalignedData s.exMem.aluResult)
      else .fault (.unimplementedFunct (s.idEx.pc4 - 4) funct)

/-- ADD (41_alu.md, ADD): rd takes the wrapping sum, every other register and every byte of memory stays, the next instruction
is the one after it. Bits [10:6] do not matter, rd = 0 is written like any other.
`exec` is the EX cycle (notes/assumptions/1.md). -/
def Obligations.AddEffect : Prop :=
  ∀ (s : State) (rs rt rd : Reg) (z : BitVec 5), s.Executing (.add rs rt rd z) →
    ∃ t : State, exec (.add rs rt rd z) s = .next t ∧ s.RetiresInto t ∧
      t.arch.reg rd = s.received rs + s.received rt ∧
      (∀ r : Reg, r ≠ rd → t.arch.reg r = s.arch.reg r) ∧
      (∀ a : Nat, Memory.read t.arch.dmem a = Memory.read s.arch.dmem a) ∧
      t.arch.pc = s.arch.pc + 4 ∧ t.halted = false

/-- ADDI (41_alu.md, ADDI): rt takes the wrapping sum with the sign-extended immediate, everything else stays.
`exec` is the EX cycle (notes/assumptions/1.md). -/
def Obligations.AddiEffect : Prop :=
  ∀ (s : State) (rs rt : Reg) (imm : BitVec 16), s.Executing (.addi rs rt imm) →
    ∃ t : State, exec (.addi rs rt imm) s = .next t ∧ s.RetiresInto t ∧
      t.arch.reg rt = s.received rs + imm.signExtend 32 ∧
      (∀ r : Reg, r ≠ rt → t.arch.reg r = s.arch.reg r) ∧
      (∀ a : Nat, Memory.read t.arch.dmem a = Memory.read s.arch.dmem a) ∧
      t.arch.pc = s.arch.pc + 4 ∧ t.halted = false

/-- LW (42_loadstore.md, LW): rt takes the word at base plus displacement as the older stores left it, everything else stays.
Under the fault policy a misaligned address raises its fault in the next cycle, when the load is in MEM.
`exec` is the EX cycle (notes/assumptions/1.md). -/
def Obligations.LwEffect : Prop :=
  ∀ (s : State) (rs rt : Reg) (imm : BitVec 16), s.Executing (.lw rs rt imm) →
    ∃ t : State, exec (.lw rs rt imm) s = .next t ∧ s.RetiresInto t ∧
      t.arch.reg rt = readWord s.memSize s.arch.dmem (s.received rs + imm.signExtend 32) ∧
      (∀ r : Reg, r ≠ rt → t.arch.reg r = s.arch.reg r) ∧
      (∀ a : Nat, Memory.read t.arch.dmem a = Memory.read s.arch.dmem a) ∧
      t.arch.pc = s.arch.pc + 4 ∧ t.halted = false ∧
      (t.misalignedInMem = true ↔ s.params.misaligned = .fault ∧
        aligned (s.received rs + imm.signExtend 32) = false)

/-- SW (42_loadstore.md, SW): the word at base plus displacement becomes rt's value where the bounds policy lets it, no other
byte of memory changes, and no register. The instruction stays the same under either alignment policy; under the fault policy
a misaligned address raises its fault in the next cycle, when the store is in MEM.
`exec` is the EX cycle (notes/assumptions/1.md). -/
def Obligations.SwEffect : Prop :=
  ∀ (s : State) (rs rt : Reg) (imm : BitVec 16), s.Executing (.sw rs rt imm) → s.MemoryCanonical →
    ∃ t : State, exec (.sw rs rt imm) s = .next t ∧ s.RetiresInto t ∧
      t.arch.dmem = writeWord s.params.oobWrite s.memSize s.arch.dmem (s.received rs + imm.signExtend 32)
        (s.received rt) ∧
      (∀ a : Nat, a < (s.received rs + imm.signExtend 32).toNat ∨ (s.received rs + imm.signExtend 32).toNat + 4 ≤ a →
        Memory.read t.arch.dmem a = Memory.read s.arch.dmem a) ∧
      (∀ r : Reg, t.arch.reg r = s.arch.reg r) ∧
      t.arch.pc = s.arch.pc + 4 ∧ t.halted = false ∧
      (t.misalignedInMem = true ↔ s.params.misaligned = .fault ∧
        aligned (s.received rs + imm.signExtend 32) = false)

/-- BEQ (43_control.md, BEQ): equal operands take the next instruction to PC+4 plus four times the signed offset, unequal ones
to PC+4; no register and no byte of memory changes.
`exec` is the EX cycle (notes/assumptions/1.md). -/
def Obligations.BeqEffect : Prop :=
  ∀ (s : State) (rs rt : Reg) (imm : BitVec 16), s.Executing (.beq rs rt imm) →
    ∃ t : State, exec (.beq rs rt imm) s = .next t ∧ s.RetiresInto t ∧
      t.arch.pc = (if s.received rs = s.received rt then (s.arch.pc + 4) + (imm.signExtend 32 <<< 2)
        else s.arch.pc + 4) ∧
      (∀ r : Reg, t.arch.reg r = s.arch.reg r) ∧
      (∀ a : Nat, Memory.read t.arch.dmem a = Memory.read s.arch.dmem a) ∧ t.halted = false

/-- J (43_control.md, J): the next instruction is at four times the target field, no PC bits; nothing else changes.
`exec` is the EX cycle (notes/assumptions/1.md). -/
def Obligations.JumpEffect : Prop :=
  ∀ (s : State) (target : BitVec 26), s.Executing (.j target) →
    ∃ t : State, exec (.j target) s = .next t ∧ s.RetiresInto t ∧
      t.arch.pc = BitVec.ofNat 32 (4 * target.toNat) ∧
      (∀ r : Reg, t.arch.reg r = s.arch.reg r) ∧
      (∀ a : Nat, Memory.read t.arch.dmem a = Memory.read s.arch.dmem a) ∧ t.halted = false

/-- HLT (44_halt_undefined.md, HLT): the machine halts at this edge with every older instruction complete in the register
file and the data store, whatever the ignored bits.
`exec` is the EX cycle (notes/assumptions/1.md). -/
def Obligations.HaltEffect : Prop :=
  ∀ (s : State) (z : BitVec 26), s.Executing (.hlt z) →
    ∃ t : State, exec (.hlt z) s = .next t ∧ s.RetiresInto t ∧ t.halted = true ∧
      (∀ r : Reg, t.reg r = s.arch.reg r) ∧ (∀ r : Reg, t.arch.reg r = s.arch.reg r) ∧
      (∀ a : Nat, Memory.read t.dmem a = Memory.read s.arch.dmem a) ∧
      (∀ a : Nat, Memory.read t.arch.dmem a = Memory.read s.arch.dmem a)

/-- An unknown opcode (44_halt_undefined.md, unknown opcodes) retires and changes nothing but the next address and the
counters.
`exec` is the EX cycle (notes/assumptions/1.md). -/
def Obligations.UnknownOpcodeEffect : Prop :=
  ∀ (s : State) (opcode : BitVec 6) (rest : BitVec 26),
    (Instr.unknownOpcode opcode rest).wellFormed = true → s.Executing (.unknownOpcode opcode rest) →
    ∃ t : State, exec (.unknownOpcode opcode rest) s = .next t ∧ s.RetiresInto t ∧
      t.arch.pc = s.arch.pc + 4 ∧ (∀ r : Reg, t.arch.reg r = s.arch.reg r) ∧
      (∀ a : Nat, Memory.read t.arch.dmem a = Memory.read s.arch.dmem a) ∧ t.halted = false

/-- ADD writes register rd, ADDI and LW write rt, and no other instruction writes a register (10_state.md, general
registers).
`exec` is the EX cycle (notes/assumptions/1.md). -/
def Obligations.OnlyAddAddiLwWriteRegisters : Prop :=
  ∀ (i : Instr) (s t : State), exec i s = .next t →
    (t.exMem.regWrite = true ↔ (destinationReg i).isSome = true) ∧
    ∀ r : Reg, destinationReg i = some r → t.exMem.writeReg = r

/-! ### The step -/

/-- In every state of a running machine, legal or not, the step assembled from the instructions' own meanings is the cycle of
40_pipeline.md section 11 read off the raw control lines.
`exec` is the EX cycle (notes/assumptions/1.md). -/
def Obligations.StepIsTheCycleOfTheLatches : Prop :=
  ∀ s : State, s.Running → step s = s.cycle

/-- When EX holds a word, the step is the meaning of the instruction it decodes to; the edge it takes is the meaning's own.
`exec` is the EX cycle (notes/assumptions/1.md). -/
def Obligations.StepRunsTheWordInEx : Prop :=
  ∀ (s : State) (w : Word), s.Running → s.InEx w → step s = exec (decodeWord w) s

/-- The word at the PC of a running machine with no instruction in IF/ID or ID/EX is in EX two edges later, whatever the
instruction in MEM was, and the third step is the meaning of the instruction it decodes to.
`exec` is the EX cycle (notes/assumptions/1.md). -/
def Obligations.FetchedWordRunsInTheThirdCycle : Prop :=
  ∀ s : State, s.Running → s.ifId = IfId.bubble → s.idEx = IdEx.bubble → s.misalignedInMem = false →
    ∃ t u : State, step s = .next t ∧ step t = .next u ∧ u.Running ∧
      u.InEx (s.fetchWord s.pc) ∧ u.idEx.pc4 = s.pc + 4 ∧
      step u = exec (decodeWord (s.fetchWord s.pc)) u

/-- After a table row's word is placed in the reset machine, the very next step is the meaning of the instruction the word
decodes to. This is the host's load, a device of the model (notes/assumptions/3.md). -/
def Obligations.PlacedWordRunsNext : Prop :=
  ∀ w : Nat, w < 2 ^ 32 →
    step (State.reset.withFetchWord 32 w) = exec (decodeWord (BitVec.ofNat 32 w)) (State.reset.withFetchWord 32 w) ∧
    decodeTableWord 32 w = some (decodeWord (BitVec.ofNat 32 w)) ∧
    (State.reset.withFetchWord 32 w).fetchWord 0 = BitVec.ofNat 32 w

/-! ### Whole runs -/

/-- The pipeline gives every instruction the effect of one-at-a-time execution: a step that retires the instruction in EX
takes the architectural state to what the sequential pseudocode makes of it with the operands the instruction receives, and a
step with a bubble in EX leaves it as it was (40_pipeline.md section 12). The model's own pc of a halted machine is left out
(notes/assumptions/14.md), and so is a step after which the access in MEM is a fault. -/
def Obligations.PipelineRefinesOneAtATime : Prop :=
  ∀ s t : State, s.Coherent → s.Running → step s = .next t → t.misalignedInMem = false →
    (s.idEx.valid = true →
      ∃ a : Arch, seqExecReading s.received s.arch.fetched s.arch = .next a ∧
        { t.arch with pc := a.pc } = a ∧ (a.halted = false → t.arch.pc = a.pc)) ∧
    (s.idEx.valid = false → t.arch = s.arch)

/-- A program that never writes register 0 and halts leaves the registers and the data store that executing it one
instruction at a time leaves, after as many instructions as the machine retired (40_pipeline.md section 12). -/
def Obligations.HaltedRunAgreesWithOneAtATime : Prop :=
  ∀ (image : List Byte) (params : Config.Params) (n : Nat),
    let s₀ := State.load image params
    let s := s₀.clockTimes n
    (∀ a : Word, aligned a = true → destinationReg (decodeWord (s₀.fetchWord a)) ≠ some 0) → s.halted = true →
    ∃ a : Arch, seqRun s.retired s₀.arch = some a ∧ a.halted = true ∧ a.regs = s.regs ∧ a.dmem = s.dmem

/-- For a run from reset that halts: cycles = 2 + retired + stalls + 2 x redirects, so its cycles per instruction are more
than 1 (the spec's own inference, 70_reset_and_hazards.md R242). -/
def Obligations.CycleCountOfAHaltedRun : Prop :=
  ∀ (image : List Byte) (params : Config.Params) (n : Nat),
    let s₀ := State.load image params
    let s := s₀.clockTimes n
    s.halted = true →
    s.cycles = 2 + s.retired + State.countCycles State.stallNow s.cycles s₀ +
      2 * State.countCycles State.redirectNow s.cycles s₀ ∧
    ∀ q : ℚ, s.cpi = some q → 1 < q

/-- After reset the first word enters IF/ID at edge 1, the two reset bubbles enter EX/MEM at edges 1 and 2, and the first
instruction enters EX/MEM and retires at edge 3, unless it is the fault of that cycle (the spec's own inference, 70_reset_and_hazards.md
R232). -/
def Obligations.FirstInstructionRetiresAtEdgeThree : Prop :=
  ∀ (image : List Byte) (params : Config.Params),
    let s := State.load image params
    ∃ t u : State, step s = .next t ∧ step t = .next u ∧
      t.ifId = ⟨true, s.fetchWord 0, 4⟩ ∧ t.exMem = ExMem.bubble ∧ u.exMem = ExMem.bubble ∧
      u.retired = 0 ∧ u.cycles = 2 ∧ u.InEx (s.fetchWord 0) ∧ u.idEx.pc4 = 4 ∧
      ∀ v : State, step u = .next v → v.exMem.valid = true ∧ v.retired = 1 ∧ v.cycles = 3

/-- The host's loop ends in one of three ways: halted, at a recorded fault, or after exactly MAX_CYCLES edges with neither; the
state it gives is the one that many edges lead to (60_exceptions.md, the host). -/
def Obligations.HostRunEnds : Prop :=
  ∀ (maxCycles : Nat) (s : State),
    (∃ n t, n ≤ maxCycles ∧ t = s.clockTimes n ∧ t.halted = true ∧ hostRun maxCycles s = .halted t) ∨
    (∃ n t f, n ≤ maxCycles ∧ t = s.clockTimes n ∧ t.halted = false ∧ t.fault = some f ∧
      hostRun maxCycles s = .modelFault f t) ∨
    (∃ t, t = s.clockTimes maxCycles ∧ t.Running ∧ hostRun maxCycles s = .nonTerminating t)

/-- A BEQ assembled against a label branches to the label, and a J jumps to it; a label out of reach is not assembled
(30_encoding.md, assembler syntax). -/
def Obligations.LabelsResolveToTheirAddress : Prop :=
  (∀ (at' label : Nat) (off : BitVec 16), labelOffset at' label = some off →
    branchTarget (BitVec.ofNat 32 at' + 4) (sext off) = BitVec.ofNat 32 label) ∧
  (∀ (label : Nat) (index : BitVec 26), labelIndex label = some index →
    jumpTarget index = BitVec.ofNat 32 label) ∧
  (∀ label : Nat, (labelIndex label).isSome = true ↔ label % 4 = 0 ∧ label < 2 ^ 28)
end

