-- ==== Sys2Proof/Laws/Encoding.lean ====
section
/-! SUPPORT. The fields of an encoded word, format by format (30_encoding.md R81, R82). -/

namespace Sys2Proof

/-- A field read where it was put. -/
theorem extract_placed_same {n : Nat} (v : BitVec n) (lo : Nat) (h : lo + n ≤ 32) :
    (placed v lo).extractLsb' lo n = v := by
  ext i hi
  simp only [placed, BitVec.getElem_extractLsb', BitVec.getLsbD_shiftLeft, BitVec.getLsbD_setWidth]
  rw [Nat.add_sub_cancel_left, BitVec.getLsbD_eq_getElem hi, decide_eq_true (by omega : lo + i < 32),
    decide_eq_false (by omega : ¬lo + i < lo), decide_eq_true (by omega : i < 32)]
  simp

/-- A field read above the one that was put. -/
theorem extract_placed_above {n : Nat} (v : BitVec n) (lo lo' m : Nat) (h : lo + n ≤ lo') :
    (placed v lo).extractLsb' lo' m = 0 := by
  ext i hi
  simp only [placed, BitVec.getElem_extractLsb', BitVec.getLsbD_shiftLeft, BitVec.getLsbD_setWidth]
  rw [BitVec.getLsbD_of_ge v _ (by omega)]
  simp

/-- A field read below the one that was put. -/
theorem extract_placed_below {n : Nat} (v : BitVec n) (lo lo' m : Nat) (h : lo' + m ≤ lo) :
    (placed v lo).extractLsb' lo' m = 0 := by
  ext i hi
  simp only [placed, BitVec.getElem_extractLsb', BitVec.getLsbD_shiftLeft]
  rw [decide_eq_true (by omega : lo' + i < lo)]
  simp

section FormatR
variable (rs rt rd : Reg) (z : BitVec 5) (f : BitVec 6)

@[simp] theorem opcodeField_encodeR : opcodeField (encodeR rs rt rd z f) = 0#6 := by
  simp (disch := decide) [opcodeField, encodeR, BitVec.extractLsb'_or, extract_placed_above]
@[simp] theorem rsField_encodeR : rsField (encodeR rs rt rd z f) = rs := by
  simp (disch := decide) [rsField, encodeR, BitVec.extractLsb'_or, extract_placed_above, extract_placed_same]
@[simp] theorem rtField_encodeR : rtField (encodeR rs rt rd z f) = rt := by
  simp (disch := decide) [rtField, encodeR, BitVec.extractLsb'_or, extract_placed_above, extract_placed_below,
    extract_placed_same]
@[simp] theorem rdField_encodeR : rdField (encodeR rs rt rd z f) = rd := by
  simp (disch := decide) [rdField, encodeR, BitVec.extractLsb'_or, extract_placed_above, extract_placed_below,
    extract_placed_same]
@[simp] theorem shamtField_encodeR : shamtField (encodeR rs rt rd z f) = z := by
  simp (disch := decide) [shamtField, encodeR, BitVec.extractLsb'_or, extract_placed_above, extract_placed_below,
    extract_placed_same]
@[simp] theorem functField_encodeR : functField (encodeR rs rt rd z f) = f := by
  simp (disch := decide) [functField, encodeR, BitVec.extractLsb'_or, extract_placed_below, extract_placed_same]

end FormatR

section FormatI
variable (op : BitVec 6) (rs rt : Reg) (imm : BitVec 16)

@[simp] theorem opcodeField_encodeI : opcodeField (encodeI op rs rt imm) = op := by
  simp (disch := decide) [opcodeField, encodeI, BitVec.extractLsb'_or, extract_placed_above, extract_placed_same]
@[simp] theorem rsField_encodeI : rsField (encodeI op rs rt imm) = rs := by
  simp (disch := decide) [rsField, encodeI, BitVec.extractLsb'_or, extract_placed_above, extract_placed_below,
    extract_placed_same]
@[simp] theorem rtField_encodeI : rtField (encodeI op rs rt imm) = rt := by
  simp (disch := decide) [rtField, encodeI, BitVec.extractLsb'_or, extract_placed_above, extract_placed_below,
    extract_placed_same]
@[simp] theorem immField_encodeI : immField (encodeI op rs rt imm) = imm := by
  simp (disch := decide) [immField, encodeI, BitVec.extractLsb'_or, extract_placed_below, extract_placed_same]

end FormatI

section FormatsJH
variable (op : BitVec 6) (rest : BitVec 26)

@[simp] theorem opcodeField_encodeJ : opcodeField (encodeJ op rest) = op := by
  simp (disch := decide) [opcodeField, encodeJ, BitVec.extractLsb'_or, extract_placed_above, extract_placed_same]
@[simp] theorem targetField_encodeJ : targetField (encodeJ op rest) = rest := by
  simp (disch := decide) [targetField, encodeJ, BitVec.extractLsb'_or, extract_placed_below, extract_placed_same]
/-- The register fields of a word whose format has none (30_encoding.md R83). -/
@[simp] theorem rsField_encodeJ : rsField (encodeJ op rest) = rest.extractLsb' 21 5 := by
  rw [rsField, encodeJ, BitVec.extractLsb'_or, extract_placed_below _ _ _ _ (by decide)]
  ext i hi
  simp [placed, BitVec.getElem_extractLsb']
  omega
@[simp] theorem rtField_encodeJ : rtField (encodeJ op rest) = rest.extractLsb' 16 5 := by
  rw [rtField, encodeJ, BitVec.extractLsb'_or, extract_placed_below _ _ _ _ (by decide)]
  ext i hi
  simp [placed, BitVec.getElem_extractLsb']
  omega

end FormatsJH

/-! ### The bytes of a word (20_memory.md R51) -/

section Bytes
variable (b0 b1 b2 b3 : Byte)

@[simp] theorem byteOfWord_zero : byteOfWord (wordOfBytes b0 b1 b2 b3) 0 = b0 := by
  simp (disch := decide) [byteOfWord, wordOfBytes, BitVec.extractLsb'_or, extract_placed_below, extract_placed_same]
@[simp] theorem byteOfWord_one : byteOfWord (wordOfBytes b0 b1 b2 b3) 1 = b1 := by
  simp (disch := decide) [byteOfWord, wordOfBytes, BitVec.extractLsb'_or, extract_placed_above, extract_placed_below,
    extract_placed_same]
@[simp] theorem byteOfWord_two : byteOfWord (wordOfBytes b0 b1 b2 b3) 2 = b2 := by
  simp (disch := decide) [byteOfWord, wordOfBytes, BitVec.extractLsb'_or, extract_placed_above, extract_placed_below,
    extract_placed_same]
@[simp] theorem byteOfWord_three : byteOfWord (wordOfBytes b0 b1 b2 b3) 3 = b3 := by
  simp (disch := decide) [byteOfWord, wordOfBytes, BitVec.extractLsb'_or, extract_placed_above, extract_placed_same]

end Bytes

end Sys2Proof
end

