-- ==== Sys2Proof/Laws/Memory.lean ====
section
/-! SUPPORT. The two stores: what a read gives after a write, and that every operation keeps the canonical form. -/

namespace Sys2Proof.Machine

open Sys2Proof

@[simp] theorem Memory.read_nil (a : Nat) : Memory.read [] a = 0#8 := rfl

theorem Memory.read_cons (k : Nat) (b : Byte) (rest : Memory) (a : Nat) :
    Memory.read ((k, b) :: rest) a = if a = k then b else Memory.read rest a := rfl

/-- In canonical form no address below the lower bound is listed. -/
theorem Memory.read_below {m : Memory} {low a : Nat} (h : Memory.wfFrom low m = true) (ha : a < low) :
    Memory.read m a = 0#8 := by
  induction m generalizing low with
  | nil => rfl
  | cons c rest ih =>
    obtain ⟨k, b⟩ := c
    simp only [Memory.wfFrom, Bool.and_eq_true, decide_eq_true_eq] at h
    rw [Memory.read_cons, if_neg (by omega)]
    exact ih h.2 (by omega)

theorem Memory.wfFrom_mono {m : Memory} {low low' : Nat} (h : Memory.wfFrom low m = true) (hl : low' ≤ low) :
    Memory.wfFrom low' m = true := by
  cases m with
  | nil => rfl
  | cons c rest =>
    obtain ⟨k, b⟩ := c
    simp only [Memory.wfFrom, Bool.and_eq_true, decide_eq_true_eq] at h ⊢
    exact ⟨⟨by omega, h.1.2⟩, h.2⟩

/-- The byte read after a write: the one written at its address, the old one elsewhere. -/
theorem Memory.read_write {m : Memory} {low : Nat} (h : Memory.wfFrom low m = true) (a : Nat) (v : Byte) (a' : Nat) :
    Memory.read (Memory.write m a v) a' = if a' = a then v else Memory.read m a' := by
  induction m generalizing low with
  | nil =>
    simp only [Memory.write]
    split
    · rename_i hv
      simp [hv]
    · rfl
  | cons c rest ih =>
    obtain ⟨k, b⟩ := c
    simp only [Memory.wfFrom, Bool.and_eq_true, decide_eq_true_eq] at h
    have below := fun x (hx : x < k + 1) => Memory.read_below h.2 hx
    simp only [Memory.write]
    split
    · split
      · rename_i hlt hv
        by_cases he : a' = a
        · subst he
          rw [if_pos rfl, Memory.read_cons, if_neg (by omega), below _ (by omega), hv]
        · rw [if_neg he]
      · rw [Memory.read_cons]
    · split
      · rename_i _ heq
        subst heq
        split
        · rename_i hv
          by_cases he : a' = a
          · subst he
            rw [if_pos rfl, below _ (by omega), hv]
          · rw [if_neg he, Memory.read_cons, if_neg he]
        · rw [Memory.read_cons, Memory.read_cons]
          by_cases he : a' = a
          · rw [if_pos he, if_pos he]
          · rw [if_neg he, if_neg he, if_neg he]
      · rw [Memory.read_cons, ih h.2, Memory.read_cons]
        by_cases he : a' = a
        · rw [if_pos he, if_pos he, if_neg (by omega)]
        · rw [if_neg he, if_neg he]

/-- A write keeps the canonical form. -/
theorem Memory.wfFrom_write {m : Memory} {low : Nat} (h : Memory.wfFrom low m = true) (a : Nat) (ha : low ≤ a) (v : Byte) :
    Memory.wfFrom low (Memory.write m a v) = true := by
  induction m generalizing low with
  | nil =>
    simp only [Memory.write]
    split
    · rfl
    · simp_all [Memory.wfFrom]
  | cons c rest ih =>
    obtain ⟨k, b⟩ := c
    have h' := h
    simp only [Memory.wfFrom, Bool.and_eq_true, decide_eq_true_eq] at h
    simp only [Memory.write]
    split
    · split
      · exact h'
      · rename_i hlt hv
        simp only [Memory.wfFrom, Bool.and_eq_true, decide_eq_true_eq, bne_iff_ne, ne_eq]
        exact ⟨⟨ha, hv⟩, ⟨by omega, by simpa using h.1.2⟩, h.2⟩
    · split
      · split
        · exact Memory.wfFrom_mono h.2 (by omega)
        · rename_i heq hv
          subst heq
          simp only [Memory.wfFrom, Bool.and_eq_true, decide_eq_true_eq, bne_iff_ne, ne_eq]
          exact ⟨⟨ha, hv⟩, h.2⟩
      · simp only [Memory.wfFrom, Bool.and_eq_true, decide_eq_true_eq]
        exact ⟨h.1, ih h.2 (by omega)⟩

theorem Memory.wf_write {m : Memory} (h : Memory.wf m = true) (a : Nat) (v : Byte) :
    Memory.wf (Memory.write m a v) = true :=
  Memory.wfFrom_write h a (Nat.zero_le a) v

theorem Memory.wf_read_write {m : Memory} (h : Memory.wf m = true) (a : Nat) (v : Byte) (a' : Nat) :
    Memory.read (Memory.write m a v) a' = if a' = a then v else Memory.read m a' :=
  Memory.read_write h a v a'

theorem Memory.within_cons (size k : Nat) (b : Byte) (rest : Memory) :
    Memory.within size ((k, b) :: rest) = true ↔ k < size ∧ Memory.within size rest = true := by
  simp [Memory.within]

/-- A write below MEM_SIZE lists no address at or beyond it. -/
theorem Memory.within_write {m : Memory} {size : Nat} (h : Memory.within size m = true) (a : Nat) (ha : a < size)
    (v : Byte) : Memory.within size (Memory.write m a v) = true := by
  induction m with
  | nil =>
    simp only [Memory.write]
    split
    · rfl
    · simp [Memory.within, ha]
  | cons c rest ih =>
    obtain ⟨k, b⟩ := c
    rw [Memory.within_cons] at h
    simp only [Memory.write]
    split
    · split <;> simp only [Memory.within_cons, h, ha, and_self]
    · split
      · split <;> simp only [Memory.within_cons, h, ha, and_self]
      · rw [Memory.within_cons]
        exact ⟨h.1, ih h.2⟩

/-! ### The operations of the data store -/

theorem writeByteInBounds_wf {size : Nat} {m : Memory} (h : Memory.wf m = true) (a : Nat) (v : Byte) :
    Memory.wf (writeByteInBounds size m a v) = true := by
  unfold writeByteInBounds
  split
  · exact Memory.wf_write h a v
  · exact h

theorem writeByteInBounds_within {size : Nat} {m : Memory} (h : Memory.within size m = true) (a : Nat) (v : Byte) :
    Memory.within size (writeByteInBounds size m a v) = true := by
  unfold writeByteInBounds
  split
  · exact Memory.within_write h a (by assumption) v
  · exact h

/-- The byte read after one byte of a store instruction. -/
theorem read_writeByteInBounds {size : Nat} {m : Memory} (h : Memory.wf m = true) (a : Nat) (v : Byte) (a' : Nat) :
    Memory.read (writeByteInBounds size m a v) a' = if a' = a ∧ a < size then v else Memory.read m a' := by
  unfold writeByteInBounds
  split <;> simp_all [Memory.wf_read_write h]

theorem writeBytes_wf {size : Nat} {m : Memory} (h : Memory.wf m = true) (a v : Word) :
    Memory.wf (writeBytes size m a v) = true :=
  writeByteInBounds_wf (writeByteInBounds_wf (writeByteInBounds_wf (writeByteInBounds_wf h _ _) _ _) _ _) _ _

theorem writeBytes_within {size : Nat} {m : Memory} (h : Memory.within size m = true) (a v : Word) :
    Memory.within size (writeBytes size m a v) = true :=
  writeByteInBounds_within (writeByteInBounds_within (writeByteInBounds_within
    (writeByteInBounds_within h _ _) _ _) _ _) _ _

/-- A store keeps the canonical form, whatever the policy. -/
theorem writeWord_wf {policy : Config.OobWritePolicy} {size : Nat} {m : Memory} (h : Memory.wf m = true) (a v : Word) :
    Memory.wf (writeWord policy size m a v) = true := by
  cases policy
  · simp only [writeWord]
    split
    · exact writeBytes_wf h a v
    · exact h
  · exact writeBytes_wf h a v

/-- A store lists no address at or beyond MEM_SIZE, whatever the policy. -/
theorem writeWord_within {policy : Config.OobWritePolicy} {size : Nat} {m : Memory}
    (h : Memory.within size m = true) (a v : Word) : Memory.within size (writeWord policy size m a v) = true := by
  cases policy
  · simp only [writeWord]
    split
    · exact writeBytes_within h a v
    · exact h
  · exact writeBytes_within h a v

/-! ### The operations of the host's load -/

theorem storeWord_wf {m : Memory} (h : Memory.wf m = true) (a : Nat) (v : Word) : Memory.wf (storeWord m a v) = true :=
  Memory.wf_write (Memory.wf_write (Memory.wf_write (Memory.wf_write h _ _) _ _) _ _) _ _

theorem ofBytesFrom_wf (bytes : List Byte) (a : Nat) : Memory.wfFrom a (Memory.ofBytesFrom a bytes) = true := by
  induction bytes generalizing a with
  | nil => rfl
  | cons b rest ih =>
    simp only [Memory.ofBytesFrom]
    split
    · exact Memory.wfFrom_mono (ih (a + 1)) (by omega)
    · simp only [Memory.wfFrom, Bool.and_eq_true, decide_eq_true_eq, bne_iff_ne, ne_eq]
      exact ⟨⟨Nat.le_refl a, by assumption⟩, ih (a + 1)⟩

/-- A loaded image is in canonical form. -/
theorem ofImage_wf (image : List Byte) : Memory.wf (Memory.ofImage image) = true := ofBytesFrom_wf image 0

theorem ofBytesFrom_within (bytes : List Byte) (a : Nat) :
    Memory.within (a + bytes.length) (Memory.ofBytesFrom a bytes) = true := by
  induction bytes generalizing a with
  | nil => rfl
  | cons b rest ih =>
    have h := ih (a + 1)
    rw [show a + 1 + rest.length = a + (b :: rest).length by simp only [List.length_cons]; omega] at h
    simp only [Memory.ofBytesFrom]
    split
    · exact h
    · rw [Memory.within_cons]
      exact ⟨by simp, h⟩

/-- A loaded image lists no address at or beyond its length. -/
theorem ofImage_within (image : List Byte) : Memory.within image.length (Memory.ofImage image) = true := by
  have h := ofBytesFrom_within image 0
  rwa [Nat.zero_add] at h

/-- Reading a loaded image gives its bytes, and 0 past its end. -/
theorem read_ofBytesFrom (bytes : List Byte) (a k : Nat) :
    Memory.read (Memory.ofBytesFrom a bytes) (a + k) = bytes.getD k 0 := by
  induction bytes generalizing a k with
  | nil => rfl
  | cons b rest ih =>
    simp only [Memory.ofBytesFrom]
    cases k with
    | zero =>
      split
      · rename_i hb
        rw [Memory.read_below (ofBytesFrom_wf rest (a + 1)) (by omega)]
        simp [hb]
      · simp [Memory.read_cons]
    | succ k =>
      have h := ih (a + 1) k
      rw [show a + 1 + k = a + (k + 1) by omega] at h
      split
      · simpa using h
      · rw [Memory.read_cons, if_neg (by omega)]
        simpa using h

theorem read_ofImage (image : List Byte) (k : Nat) : Memory.read (Memory.ofImage image) k = image.getD k 0 := by
  have h := read_ofBytesFrom image 0 k
  rwa [Nat.zero_add] at h

end Sys2Proof.Machine
end

