-- ==== Sys2Proof/Laws/State.lean ====
section
/-! SUPPORT. Each field after each update of the state, so that no later proof unfolds a record update. -/

namespace Sys2Proof.Machine

open Sys2Proof

/-! ### The clock edge -/

section Edge
variable (s : State) (ex : ExOut)

@[simp] theorem edge_regs : (s.edge ex).regs = s.regsNext ex.exMem.terminate := rfl
@[simp] theorem edge_pc : (s.edge ex).pc = s.pcNext ex.redirect ex.stall := rfl
@[simp] theorem edge_ifId : (s.edge ex).ifId = s.ifIdNext ex.redirect ex.stall := rfl
@[simp] theorem edge_idEx : (s.edge ex).idEx = s.idExNext ex.redirect ex.stall := rfl
@[simp] theorem edge_exMem : (s.edge ex).exMem = ex.exMem := rfl
@[simp] theorem edge_memWb : (s.edge ex).memWb = s.memStage := rfl
@[simp] theorem edge_imem : (s.edge ex).imem = s.imem := rfl
@[simp] theorem edge_dmem : (s.edge ex).dmem = s.dmemNext := rfl
@[simp] theorem edge_memSize : (s.edge ex).memSize = s.memSize := rfl
@[simp] theorem edge_retired : (s.edge ex).retired = s.retired + ex.exMem.valid.toNat := rfl
@[simp] theorem edge_cycles : (s.edge ex).cycles = s.cycles + 1 := rfl
@[simp] theorem edge_halted : (s.edge ex).halted = ex.exMem.terminate := rfl
@[simp] theorem edge_fault : (s.edge ex).fault = s.fault := rfl
@[simp] theorem edge_params : (s.edge ex).params = s.params := rfl
@[simp] theorem edge_fetchWord (a : Word) : (s.edge ex).fetchWord a = s.fetchWord a := rfl

end Edge

/-! ### The next values of the PC and the two younger latches -/

section Next
variable (s : State) (t : Word) (stall : Bool)

@[simp] theorem pcNext_redirect : s.pcNext (some t) stall = t := rfl
@[simp] theorem pcNext_stall : s.pcNext none true = s.pc := rfl
@[simp] theorem pcNext_advance : s.pcNext none false = s.pc + 4 := rfl
@[simp] theorem ifIdNext_redirect : s.ifIdNext (some t) stall = .bubble := rfl
@[simp] theorem ifIdNext_stall : s.ifIdNext none true = s.ifId := rfl
@[simp] theorem ifIdNext_advance : s.ifIdNext none false = ⟨true, s.fetchWord s.pc, s.pc + 4⟩ := rfl
@[simp] theorem idExNext_redirect : s.idExNext (some t) stall = .bubble := rfl
@[simp] theorem idExNext_stall (r : Option Word) : s.idExNext r true = .bubble := by simp [State.idExNext]

/-- With neither a redirect nor a stall, ID/EX takes a bubble from a bubble and the decoded word from a word. -/
theorem idExNext_advance : s.idExNext none false =
    if s.ifId.valid then
      IdEx.ofWord s.ifId.instr s.ifId.pc4 (s.rfRead (rsField s.ifId.instr)) (s.rfRead (rtField s.ifId.instr))
    else .bubble := by
  cases h : s.ifId.valid <;> simp [State.idExNext, h]

end Next

/-! ### Bubbles -/

@[simp] theorem ifId_bubble_valid : IfId.bubble.valid = false := rfl
@[simp] theorem idEx_bubble_valid : IdEx.bubble.valid = false := rfl
@[simp] theorem idEx_bubble_ctl : IdEx.bubble.ctl = {} := rfl
@[simp] theorem exMem_bubble_valid : ExMem.bubble.valid = false := rfl
@[simp] theorem exMem_bubble_regWrite : ExMem.bubble.regWrite = false := rfl
@[simp] theorem exMem_bubble_memWrite : ExMem.bubble.memWrite = false := rfl
@[simp] theorem exMem_bubble_memRead : ExMem.bubble.memRead = false := rfl
@[simp] theorem exMem_bubble_memToReg : ExMem.bubble.memToReg = false := rfl
@[simp] theorem exMem_bubble_terminate : ExMem.bubble.terminate = false := rfl
@[simp] theorem memWb_bubble_valid : MemWb.bubble.valid = false := rfl
@[simp] theorem memWb_bubble_regWrite : MemWb.bubble.regWrite = false := rfl

/-! ### What ID latches for a word -/

section OfWord
variable (w pc4 a b : Word)

@[simp] theorem ofWord_valid : (IdEx.ofWord w pc4 a b).valid = true := rfl
@[simp] theorem ofWord_ctl : (IdEx.ofWord w pc4 a b).ctl = controlLines (opcodeField w) := rfl
@[simp] theorem ofWord_pc4 : (IdEx.ofWord w pc4 a b).pc4 = pc4 := rfl
@[simp] theorem ofWord_rd1 : (IdEx.ofWord w pc4 a b).rd1 = a := rfl
@[simp] theorem ofWord_rd2 : (IdEx.ofWord w pc4 a b).rd2 = b := rfl
@[simp] theorem ofWord_imm : (IdEx.ofWord w pc4 a b).imm = sext (immField w) := rfl
@[simp] theorem ofWord_rs : (IdEx.ofWord w pc4 a b).rs = rsField w := rfl
@[simp] theorem ofWord_rt : (IdEx.ofWord w pc4 a b).rt = rtField w := rfl
@[simp] theorem ofWord_rd : (IdEx.ofWord w pc4 a b).rd = rdField w := rfl
@[simp] theorem ofWord_funct : (IdEx.ofWord w pc4 a b).funct = functField w := rfl
@[simp] theorem ofWord_target : (IdEx.ofWord w pc4 a b).target = targetField w := rfl

end OfWord

end Sys2Proof.Machine
end

