-- ==== Sys2Proof/Laws/PerInstr.lean ====
section
/-! SUPPORT. Per instruction: what ID latches for its word (40_pipeline.md R113, R114, R134), one lemma per constructor. -/

namespace Sys2Proof.Laws.Latched

open Sys2Proof Sys2Proof.Machine

/-- The control word of an instruction, row by row of the table of R113 and R114. -/
def controlOf : Instr → ControlWord
  | .add _ _ _ _ => { regDst := true, regWrite := true, aluOp := .passthrough }
  | .addi _ _ _ => { aluSrc := true, regWrite := true }
  | .beq _ _ _ => { branch := true, aluOp := .subtract }
  | .j _ => { jump := true }
  | .lw _ _ _ => { aluSrc := true, memRead := true, memToReg := true, regWrite := true }
  | .sw _ _ _ => { aluSrc := true, memWrite := true }
  | .hlt _ => { terminate := true }
  | .unimplementedRType _ _ _ _ _ => { regDst := true, regWrite := true, aluOp := .passthrough }
  | .unknownOpcode _ _ => {}

/-- The fields EX uses of an instruction's latch are the constructor's own. -/
def Fields (i : Instr) (l : IdEx) : Prop :=
  match i with
  | .add rs rt rd _ => l.rs = rs ∧ l.rt = rt ∧ l.rd = rd ∧ l.funct = 0x20#6
  | .addi rs rt imm => l.rs = rs ∧ l.rt = rt ∧ l.imm = sext imm
  | .beq rs rt imm => l.rs = rs ∧ l.rt = rt ∧ l.imm = sext imm
  | .j target => l.rs = target.extractLsb' 21 5 ∧ l.rt = target.extractLsb' 16 5 ∧ l.target = target
  | .lw rs rt imm => l.rs = rs ∧ l.rt = rt ∧ l.imm = sext imm
  | .sw rs rt imm => l.rs = rs ∧ l.rt = rt ∧ l.imm = sext imm
  | .hlt z => l.rs = z.extractLsb' 21 5 ∧ l.rt = z.extractLsb' 16 5
  | .unimplementedRType rs rt rd _ funct => l.rs = rs ∧ l.rt = rt ∧ l.rd = rd ∧ l.funct = funct
  | .unknownOpcode _ rest => l.rs = rest.extractLsb' 21 5 ∧ l.rt = rest.extractLsb' 16 5

/-- ID latches the instruction's control word and fields. -/
def Statement (i : Instr) : Prop :=
  i.wellFormed = true → ∀ pc4 a b : Word,
    (IdEx.ofWord (encode i) pc4 a b).ctl = controlOf i ∧ Fields i (IdEx.ofWord (encode i) pc4 a b)

theorem add (rs rt rd : Reg) (z : BitVec 5) : Statement (.add rs rt rd z) := by
  intro _ pc4 a b
  simp [encode, controlOf, Fields, controlLines]

theorem addi (rs rt : Reg) (imm : BitVec 16) : Statement (.addi rs rt imm) := by
  intro _ pc4 a b
  simp [encode, controlOf, Fields, controlLines]

theorem beq (rs rt : Reg) (imm : BitVec 16) : Statement (.beq rs rt imm) := by
  intro _ pc4 a b
  simp [encode, controlOf, Fields, controlLines]

theorem j (target : BitVec 26) : Statement (.j target) := by
  intro _ pc4 a b
  simp [encode, controlOf, Fields, controlLines]

theorem lw (rs rt : Reg) (imm : BitVec 16) : Statement (.lw rs rt imm) := by
  intro _ pc4 a b
  simp [encode, controlOf, Fields, controlLines]

theorem sw (rs rt : Reg) (imm : BitVec 16) : Statement (.sw rs rt imm) := by
  intro _ pc4 a b
  simp [encode, controlOf, Fields, controlLines]

theorem hlt (z : BitVec 26) : Statement (.hlt z) := by
  intro _ pc4 a b
  simp [encode, controlOf, Fields, controlLines]

theorem unimplementedRType (rs rt rd : Reg) (z : BitVec 5) (funct : BitVec 6) :
    Statement (.unimplementedRType rs rt rd z funct) := by
  intro _ pc4 a b
  simp [encode, controlOf, Fields, controlLines]

theorem unknownOpcode (op : BitVec 6) (rest : BitVec 26) : Statement (.unknownOpcode op rest) := by
  intro h pc4 a b
  simp only [Instr.wellFormed, knownOpcodes, Bool.not_eq_true', List.contains_eq_mem, decide_eq_false_iff_not,
    List.mem_cons, List.not_mem_nil, or_false, not_or] at h
  obtain ⟨h0, h1, h2, h3, h4, h5, h6⟩ := h
  simp [encode, controlOf, Fields, controlLines, h0, h1, h2, h3, h4, h5, h6]

end Sys2Proof.Laws.Latched
end

