-- ==== Sys2Proof/Laws/Registers.lean ====
section
/-! SUPPORT. The register file: what a read gives after a write. -/

namespace Sys2Proof.Machine

open Sys2Proof

/-- Register 0 included: no register is hardwired (10_state.md R22). -/
theorem Regs.get_put (x : Regs) (i : Reg) (v : Word) (r : Reg) :
    Regs.get (Regs.put x i v) r = if r = i then v else Regs.get x r := by
  unfold Regs.get Regs.put
  rw [Vector.getElem_set]
  by_cases h : r = i
  · simp [h]
  · rw [if_neg (fun e => h (BitVec.eq_of_toNat_eq e.symm)), if_neg h]

@[simp] theorem Regs.get_put_same (x : Regs) (i : Reg) (v : Word) : Regs.get (Regs.put x i v) i = v := by
  simp [Regs.get_put]

/-- Two register files that read alike are the same. -/
theorem Regs.ext_get {x y : Regs} (h : ∀ r : Reg, Regs.get x r = Regs.get y r) : x = y := by
  apply Vector.ext
  intro i hi
  have hr := h (BitVec.ofNat 5 i)
  simpa [Regs.get, Nat.mod_eq_of_lt hi] using hr

/-- A register after a MEM/WB latch's write. -/
theorem MemWb.get_writeBack (l : MemWb) (x : Regs) (r : Reg) :
    Regs.get (l.writeBack x) r = if l.regWrite = true ∧ l.writeReg = r then l.value else Regs.get x r := by
  unfold MemWb.writeBack
  cases h : l.regWrite
  · simp
  · simp only [if_true, Regs.get_put, true_and]
    by_cases e : r = l.writeReg <;> simp [e, eq_comm]

@[simp] theorem MemWb.writeBack_bubble (x : Regs) : MemWb.bubble.writeBack x = x := rfl

/-- A read port, bypass included, gives the register as the edge leaves it (40_pipeline.md R121, R122). -/
theorem rfRead_eq_writeBack (s : State) (r : Reg) : s.rfRead r = Regs.get (s.memWb.writeBack s.regs) r := by
  rw [MemWb.get_writeBack]
  simp only [State.rfRead, State.reg, Bool.and_eq_true, beq_iff_eq]

end Sys2Proof.Machine
end

