-- ==== Sys2Proof/Laws/Step.lean ====
section
/-! SUPPORT. Once for each: all that finishing a cycle, and a step, can do. -/

namespace Sys2Proof.Machine

open Sys2Proof

/-- A finished cycle that answers a next state found no misaligned access in MEM and no fault in EX, and took the edge. -/
theorem finishCycle_next {s t : State} {ex : Except Fault ExOut} (h : s.finishCycle ex = .next t) :
    s.misalignedInMem = false ∧ ∃ out, ex = .ok out ∧ t = s.edge out := by
  unfold State.finishCycle raise at h
  split at h
  · cases h
  · cases ex with
    | error f => cases h
    | ok out =>
      cases h
      exact ⟨by simp_all, out, rfl, rfl⟩

/-- A finished cycle with nothing to raise takes the edge. -/
theorem finishCycle_ok {s : State} (h : s.misalignedInMem = false) (out : ExOut) :
    s.finishCycle (.ok out) = .next (s.edge out) := by
  simp [State.finishCycle, h]

/-- The fault a finished cycle answers: the MEM stage's before the EX stage's (60_exceptions.md R207). -/
theorem finishCycle_fault {s : State} {ex : Except Fault ExOut} {f : Fault} (h : s.finishCycle ex = .fault f) :
    (s.misalignedInMem = true ∧ f = .misalignedData s.exMem.aluResult) ∨
      (s.misalignedInMem = false ∧ ex = .error f) := by
  unfold State.finishCycle raise at h
  split at h
  · cases h
    exact .inl ⟨by assumption, rfl⟩
  · cases ex with
    | error g =>
      cases h
      exact .inr ⟨by simp_all, rfl⟩
    | ok out => cases h

/-- No cycle is refused. -/
theorem finishCycle_not_refused (s : State) (ex : Except Fault ExOut) (r : Refusal) : s.finishCycle ex ≠ .refused r := by
  intro h
  unfold State.finishCycle raise at h
  split at h
  · cases h
  · cases ex <;> cases h

/-- Under the bytewise policy nothing is misaligned (20_memory.md R57). -/
theorem misalignedInMem_bytewise {s : State} (h : s.params.misaligned = .bytewise) : s.misalignedInMem = false := by
  simp [State.misalignedInMem, h]

/-- A running machine's step is one cycle with the meanings of `exec`. -/
theorem step_running {s : State} (h : s.Running) : step s = s.runCycle exec := by
  simp [step, h.1, h.2]

/-- A step that answers a next state: a halted machine stays, a running one has taken a cycle. -/
theorem step_next_cases {s t : State} (h : step s = .next t) :
    (s.halted = true ∧ t = s) ∨ (s.Running ∧ s.runCycle exec = .next t) := by
  unfold step at h
  split at h
  · rename_i hh
    cases h
    exact .inl ⟨hh, rfl⟩
  · rename_i hh
    split at h
    · cases h
    · rename_i hf
      exact .inr ⟨⟨by simpa using hh, hf⟩, h⟩

/-- Only what ID latches for a word is taken for an instruction. -/
theorem instr?_eq_some {l : IdEx} {i : Instr} (h : l.instr? = some i) :
    l = IdEx.ofWord l.word l.pc4 l.rd1 l.rd2 ∧ i = decodeWord l.word := by
  unfold IdEx.instr? at h
  split at h
  · exact ⟨by assumption, by simpa using h.symm⟩
  · cases h

/-- The host's clock at a next state. -/
theorem clock_next {s t : State} (h : step s = .next t) : s.clock = t := by
  simp [State.clock, h]

/-- The host's clock at a raise. -/
theorem clock_fault {s : State} {f : Fault} (h : step s = .fault f) : s.clock = { s with fault := some f } := by
  simp [State.clock, h]

end Sys2Proof.Machine
end

