-- ==== Sys2Proof/Tests/Slice0.lean ====
section
/-! SUPPORT. Tests. Expected values are from spec/95_test_vectors.md or worked out by hand from the rule named; then one witness
for the hypotheses of each statement of Certificates/Slice0/Obligations.lean, clause by clause. -/

namespace Sys2Proof.Tests

open Sys2Proof Sys2Proof.Machine Sys2Proof.Config

/-! ### Small states -/

/-- Word `ex` at address 0 in EX, `id` at address 4 in ID, bubbles ahead; the register file was read as `a` and `b`. -/
def stageWith (ex id a b : Word) : State :=
  { State.load (bytesOfWord ex ++ bytesOfWord id) .default with
    pc := 8, ifId := ⟨true, id, 8⟩, idEx := IdEx.ofWord ex 4 a b }

/-- The same in the reset registers. -/
def stage (ex id : Word) : State := stageWith ex id 0 0

/-- A load or store in MEM at an address. -/
def loadInMem (rt : Reg) (a : Word) : ExMem :=
  { valid := true, memToReg := true, memRead := true, regWrite := true, aluResult := a, storeData := 0, writeReg := rt }
def storeInMem (a v : Word) : ExMem :=
  { valid := true, memWrite := true, aluResult := a, storeData := v, writeReg := 1 }
/-- An ALU instruction in MEM, and in WB. -/
def aluInMem (rd : Reg) (v : Word) : ExMem :=
  { valid := true, regWrite := true, aluResult := v, storeData := 0, writeReg := rd }
def aluInWb (rd : Reg) (v : Word) : MemWb := ⟨true, false, true, 0, v, rd⟩

/-- An instruction in MEM of a machine with 24 bytes of data store under a pair of policies. -/
def memOnly (m : ExMem) (dmem : Memory) (policies : Params) : State :=
  { State.reset with memSize := 24, dmem := dmem, exMem := m, params := policies }

/-- The state after one step, if the step gives one. -/
def after (s : State) : Option State :=
  match step s with
  | .next t => some t
  | _ => none

/-- What the latch EX/MEM holds of an ALU result after one step. -/
def sent (s : State) : Option (Word × Reg × Bool) :=
  (after s).map fun t => (t.exMem.aluResult, t.exMem.writeReg, t.exMem.regWrite)

abbrev addWord : Word := 0x00221820   -- ADD R3,R1,R2
abbrev addiWord : Word := 0x20010005  -- ADDI R1,R0,5
abbrev lwWord : Word := 0x8C020000    -- LW R2,0(R0)
abbrev useWord : Word := 0x00421820   -- ADD R3,R2,R2
abbrev swWord : Word := 0xAC030000    -- SW R3,0(R0)
abbrev hltWord : Word := 0xFC000000
abbrev jWord : Word := 0x08000003     -- J 3
abbrev beqWord : Word := 0x1000FFFF   -- BEQ R0,R0,-1
abbrev unkWord : Word := 0x04000000
abbrev badWord : Word := 0x00221822   -- funct 0x22

/-! ### WellFormed: each check refuses an ill-formed term (30_encoding.md R87, R88) -/

theorem test_wellFormed_refuses_add_as_unimplemented : (Instr.unimplementedRType 1 2 3 0 0x20).wellFormed = false := by decide
theorem test_wellFormed_refuses_rtype_as_unknown : (Instr.unknownOpcode 0x00 0).wellFormed = false := by decide
theorem test_wellFormed_refuses_j_as_unknown : (Instr.unknownOpcode 0x02 0).wellFormed = false := by decide
theorem test_wellFormed_refuses_beq_as_unknown : (Instr.unknownOpcode 0x04 0).wellFormed = false := by decide
theorem test_wellFormed_refuses_addi_as_unknown : (Instr.unknownOpcode 0x08 0).wellFormed = false := by decide
theorem test_wellFormed_refuses_lw_as_unknown : (Instr.unknownOpcode 0x23 0).wellFormed = false := by decide
theorem test_wellFormed_refuses_sw_as_unknown : (Instr.unknownOpcode 0x2B 0).wellFormed = false := by decide
theorem test_wellFormed_refuses_hlt_as_unknown : (Instr.unknownOpcode 0x3F 0).wellFormed = false := by decide
theorem test_wellFormed_accepts_unknown : (Instr.unknownOpcode 0x3E 0).wellFormed = true := by decide
theorem test_wellFormed_accepts_unimplemented : (Instr.unimplementedRType 0 0 0 0 0x21).wellFormed = true := by decide

/-! ### Decoding: each word written field by field from the formats of 30_encoding.md R82 and the map of R86 -/

theorem test_decode_add :
    decodeWord (0b000000#6 ++ 0b00001#5 ++ 0b00010#5 ++ 0b00011#5 ++ 0b10101#5 ++ 0b100000#6) = .add 1 2 3 21 := by decide
theorem test_decode_addi : decodeWord (0b001000#6 ++ 0b00001#5 ++ 0b00010#5 ++ 0xFFF6#16) = .addi 1 2 0xFFF6 := by decide
theorem test_decode_beq : decodeWord (0b000100#6 ++ 0b00001#5 ++ 0b00010#5 ++ 0x0003#16) = .beq 1 2 3 := by decide
theorem test_decode_j : decodeWord (0b000010#6 ++ 0x2000001#26) = .j 0x2000001 := by decide
theorem test_decode_lw : decodeWord (0b100011#6 ++ 0b00001#5 ++ 0b00010#5 ++ 0x8000#16) = .lw 1 2 0x8000 := by decide
theorem test_decode_sw : decodeWord (0b101011#6 ++ 0b00001#5 ++ 0b00010#5 ++ 0x0004#16) = .sw 1 2 4 := by decide
theorem test_decode_hlt : decodeWord (0b111111#6 ++ 0x2000001#26) = .hlt 0x2000001 := by decide
theorem test_decode_unimplemented :
    decodeWord (0b000000#6 ++ 0b00001#5 ++ 0b00010#5 ++ 0b00011#5 ++ 0b00000#5 ++ 0b100010#6) =
      .unimplementedRType 1 2 3 0 0x22 := by decide
theorem test_decode_unknown : decodeWord (0b000001#6 ++ 0x2000001#26) = .unknownOpcode 0x01 0x2000001 := by decide
/-- The first byte of the store is the low byte of the word (20_memory.md R51). -/
theorem test_decode_bytes : decode [0x05, 0x00, 0x01, 0x20, 0xAA] = .ok (.addi 0 1 5, [0xAA]) := by rfl
theorem test_decodeTableWord : decodeTableWord 32 0x8C22FFFC = some (.lw 1 2 0xFFFC) := by decide

/-! ### The assembler (30_encoding.md R90, R91; the words of program P1 and V-B2) -/

theorem test_parse_sw : (parseLine [] "SW R3,0(R0)".toList).bind (assemble 12) = some (.sw 0 3 0) := by decide
theorem test_parse_add : ((parseLine [] "ADD R3,R1,R2".toList).bind (assemble 8)).map encode = some 0x00221820 := by decide
theorem test_parse_addi : ((parseLine [] "ADDI R1,R1,-1".toList).bind (assemble 4)).map encode = some 0x2021FFFF := by decide
theorem test_parse_beq_label :
    ((parseLine [("done".toList, 24)] "BEQ R1,R0,done".toList).bind (assemble 8)).map encode = some 0x10200003 := by decide

/-! ### One step of each instruction (95_test_vectors.md sections 2.3, 2.9, 2.10, 2.13, 2.14) -/

theorem test_add_wraps : sent (stageWith addWord 0 0xFFFFFFFF 1) = some (0, 3, true) := by decide
theorem test_add_into_its_source : sent (stageWith 0x00210820 0 0x40000000 0x40000000) = some (0x80000000, 1, true) := by decide
theorem test_addi_minus_one : sent (stageWith 0x2021FFFF 0 0 0) = some (0xFFFFFFFF, 1, true) := by decide
theorem test_addi_least_immediate : sent (stageWith 0x20048000 0 0 0) = some (0xFFFF8000, 4, true) := by decide
theorem test_lw_past_the_end :
    (after (memOnly (loadInMem 2 22) [(22, 0xAA), (23, 0xBB)] .default)).map (·.memWb.memData) = some 0x0000BBAA := by decide
theorem test_lw_negative_displacement : sent (stageWith 0x8C22FFFC 0 4 0) = some (0, 2, true) := by decide
theorem test_sw_whole_word_dropped :
    (after (memOnly (storeInMem 21 0x11223344) [] .default)).map (·.dmem) = some [] := by decide
theorem test_sw_per_byte :
    (after (memOnly (storeInMem 21 0x11223344) [] ⟨.perByte, .bytewise⟩)).map (·.dmem) =
      some [(21, 0x44), (22, 0x33), (23, 0x22)] := by decide
theorem test_beq_taken_at_eight :
    (after { State.reset with pc := 16, idEx := IdEx.ofWord 0x10220003 12 9 9 }).map (·.pc) = some 24 := by decide
theorem test_beq_not_taken :
    (after { State.reset with pc := 16, idEx := IdEx.ofWord 0x10220003 12 9 8 }).map (·.pc) = some 20 := by decide
theorem test_j_greatest_target : (after (stage 0x0BFFFFFF 0)).map (·.pc) = some 0x0FFFFFFC := by decide
theorem test_j_takes_no_pc_bits :
    (after { State.reset with pc := 0x10000008, idEx := IdEx.ofWord 0x08000001 0x10000004 0 0 }).map (·.pc) = some 4 := by
  decide
/-- The halting edge of program P1: the LW in MEM writes register 4. -/
theorem test_hlt_drains :
    (after { stage hltWord 0 with exMem := loadInMem 4 0, dmem := [(0, 0x0C)] }).map (fun t => (t.halted, t.reg 4)) =
      some (true, 12) := by decide
theorem test_unknown_opcode_retires :
    (after (stage unkWord 0)).map (fun t => (t.retired, t.exMem.regWrite, t.halted)) = some (1, false, false) := by decide
theorem test_unimplemented_faults : step (stage badWord 0) = .fault (.unimplementedFunct 0 0x22) := by rfl
theorem test_misaligned_store_faults :
    step (memOnly (storeInMem 2 7) [] ⟨.wholeWord, .fault⟩) = .fault (.misalignedData 2) := by rfl

/-! ### The units (95_test_vectors.md sections 2.6 to 2.8) -/

theorem test_hazard_names_rd_only : (stage lwWord 0x00211020).hazardStall = false := by decide
theorem test_hazard_register_zero : (stage 0x8C000000 hltWord).hazardStall = true := by decide
theorem test_forward_newest :
    ({ stage addWord 0 with exMem := aluInMem 1 2, memWb := aluInWb 1 1 } : State).opA 1 = 2 := by decide
theorem test_forward_never_zero :
    ({ stage addWord 0 with exMem := aluInMem 0 2, memWb := aluInWb 0 1 } : State).forwardSel 0 = 0 := by decide
theorem test_bypass_register_zero : ({ State.reset with memWb := aluInWb 0 7 } : State).rfRead 0 = 7 := by decide
theorem test_read_does_not_wrap :
    readWord 8 [(0, 0x11), (1, 0x22)] 0xFFFFFFFE = 0 := by decide

/-! ### Witnesses for the hypotheses of the statements -/

theorem test_witness_DecodeInvertsEncode :
    (Instr.unimplementedRType 31 31 31 31 0x21).wellFormed = true ∧ (Instr.unknownOpcode 0x3E 0x3FFFFFF).wellFormed = true := by
  decide

theorem test_witness_InstructionsAreFourLittleEndianBytes : ([1, 2, 3] : List Byte).length < 4 := by decide

theorem test_witness_ControlUnitTable : (0x01 : BitVec 6) ∉ knownOpcodes := by decide

/-- ADD R3,R1,R2 in ID while WB writes register 1. -/
theorem test_witness_ReadPortSeesTheWriteOfItsCycle :
    let s : State := { State.reset with ifId := ⟨true, addWord, 4⟩, pc := 4, memWb := aluInWb 1 9 }
    s.Running ∧ ∃ t, step s = .next t ∧ t.idEx.valid = true ∧ t.idEx.rd1 = 9 :=
  ⟨by decide, _, rfl, by decide⟩

theorem test_witness_ForwardingPriority :
    (stage addiWord 0).Running ∧ ∃ t, step (stage addiWord 0) = .next t ∧
      (stage addiWord 0).idEx.valid = true ∧ (stage addiWord 0).idEx.ctl.aluSrc = true :=
  ⟨by decide, _, rfl, by decide⟩

theorem test_witness_ControlTargetsAreAligned : aligned 0xFFFFFFFC = true := by decide

/-- The last byte of a word, below MEM_SIZE and at it. -/
theorem test_witness_BytesReadFromAStore : 3 < 4 ∧ (1 : Word).toNat + 3 < 5 ∧ ¬(1 : Word).toNat + 3 < 4 := by decide

theorem test_witness_BytesWrittenToAStore :
    Memory.wf [(0, 0x11), (5, 0x22)] = true ∧
    (memOnly (storeInMem 21 7) [] .default).Running ∧ (memOnly (storeInMem 21 7) [] .default).exMem.memWrite = true ∧
    (memOnly (storeInMem 21 7) [] .default).params.misaligned = .bytewise ∧
    ((memOnly (storeInMem 21 7) [] .default).idEx.valid = true →
      (memOnly (storeInMem 21 7) [] .default).idEx.ctl.aluOp ≠ .passthrough) := by decide

theorem test_witness_AccessesDoNotWrapAtTheTop :
    (2 ^ 32 : Nat) ≤ 2 ^ 32 ∧ Memory.wf [(0, 0x11)] = true ∧ 1 < 4 ∧ 2 ^ 32 ≤ (0xFFFFFFFF : Word).toNat + 1 := by decide

/-- A store of the last four bytes of the data store; a bubble in MEM. -/
theorem test_witness_StoreIsSeenByTheNextRead :
    (let s := memOnly (storeInMem 20 7) [] .default
     s.Running ∧ (∃ t, step s = .next t) ∧ s.exMem.memWrite = true ∧ s.MemoryCanonical ∧
       s.exMem.aluResult.toNat + 4 ≤ s.memSize) ∧
    (let s := State.reset
     s.Running ∧ (∃ t, step s = .next t) ∧ s.exMem = ExMem.bubble) :=
  ⟨⟨by decide, ⟨_, rfl⟩, by decide, by decide, by decide⟩, by decide, ⟨_, rfl⟩, rfl⟩

theorem test_witness_StoresNeverChangeFetch : ∃ t, step (memOnly (storeInMem 0 7) [] .default) = .next t := ⟨_, rfl⟩

/-- A fetch past the end, a redirect, a stall, and neither. -/
theorem test_witness_NextPcAndFetchLatch :
    State.reset.memSize ≤ (0 : Word).toNat ∧
    ((stage jWord 0).Running ∧ (stage jWord 0).redirectNow = true ∧ ∃ t, step (stage jWord 0) = .next t) ∧
    ((stage lwWord useWord).Running ∧ (stage lwWord useWord).hazardStall = true ∧
      ∃ t, step (stage lwWord useWord) = .next t) ∧
    ((stage addWord swWord).Running ∧ (stage addWord swWord).redirectNow = false ∧
      (stage addWord swWord).hazardStall = false ∧ ∃ t, step (stage addWord swWord) = .next t) :=
  ⟨by decide, ⟨by decide, by decide, _, rfl⟩, ⟨by decide, by decide, _, rfl⟩, by decide, by decide, by decide, _, rfl⟩

theorem test_witness_NextDecodeLatch :
    (stage addWord swWord).Running ∧ (stage addWord swWord).ifId.valid = true ∧ ∃ t, step (stage addWord swWord) = .next t :=
  ⟨by decide, by decide, _, rfl⟩

theorem test_witness_CountersAdvance :
    ((stage unkWord 0).Running ∧ (stage unkWord 0).idEx.valid = true ∧ ∃ t, step (stage unkWord 0) = .next t) ∧
    (State.reset.Running ∧ State.reset.idEx.valid = false ∧ ∃ t, step State.reset = .next t) :=
  ⟨⟨by decide, by decide, _, rfl⟩, by decide, by decide, _, rfl⟩

/-- A running edge and a halting edge, each with a register to write. -/
theorem test_witness_WritePortAndHaltDrain :
    (let s : State := { stage addWord 0 with memWb := aluInWb 0 7 }
     s.Running ∧ ∃ t, step s = .next t ∧ t.halted = false ∧ t.reg 0 = 7) ∧
    (let s : State := { stage hltWord 0 with exMem := aluInMem 1 8, memWb := aluInWb 1 7 }
     s.Running ∧ ∃ t, step s = .next t ∧ t.halted = true ∧ t.reg 1 = 8) :=
  ⟨⟨by decide, _, rfl, by decide⟩, by decide, _, rfl, by decide⟩

theorem test_witness_HaltTakesEffectAndStays :
    ((stage hltWord 0).Running ∧ ∃ t, step (stage hltWord 0) = .next t ∧ t.halted = true) ∧
    ({ State.reset with halted := true } : State).halted = true :=
  ⟨⟨by decide, _, rfl, by decide⟩, rfl⟩

theorem test_witness_LoadUseStallHoldsFetchAndDecode :
    let s := stage lwWord useWord
    s.Running ∧ s.hazardStall = true ∧ s.redirectNow = false ∧ s.ifId.valid = true ∧
      ∃ t, step s = .next t ∧ t.halted = false ∧ ∃ u, step t = .next u :=
  ⟨by decide, by decide, by decide, by decide, _, rfl, by decide, _, rfl⟩

theorem test_witness_RedirectSquashesTheTwoYounger :
    let s := stage jWord addWord
    s.Running ∧ s.redirectNow = true ∧
      ∃ t, step s = .next t ∧ t.halted = false ∧ ∃ u, step t = .next u ∧ ∃ v, step u = .next v :=
  ⟨by decide, by decide, _, rfl, by decide, _, rfl, _, rfl⟩

/-- Both faults in one cycle, and the younger alone. -/
theorem test_witness_CycleFaultsOldestFirst :
    (let s : State := { stage badWord 0 with exMem := loadInMem 2 3, params := ⟨.wholeWord, .fault⟩ }
     s.Running ∧ s.misalignedInMem = true ∧ step s = .fault (.misalignedData 3)) ∧
    (let s := stage badWord 0
     s.Running ∧ s.misalignedInMem = false ∧ step s = .fault (.unimplementedFunct 0 0x22)) :=
  ⟨⟨by decide, by decide, rfl⟩, by decide, by decide, rfl⟩

theorem test_witness_RaiseRecordsTheFaultAndStops :
    (stage badWord 0).Running ∧ step (stage badWord 0) = .fault (.unimplementedFunct 0 0x22) := ⟨by decide, rfl⟩

/-- A misaligned store under each policy, at 1 and at 3 past a multiple of 4. -/
theorem test_witness_MisalignedAccessByPolicy :
    (let s := memOnly (storeInMem 3 7) [] .default
     s.params.misaligned = .bytewise ∧ s.Running ∧ s.exMem.valid = true ∧ s.exMem.memWrite = true ∧
       ∃ t, step s = .next t) ∧
    (let s := memOnly (storeInMem 1 7) [] ⟨.wholeWord, .fault⟩
     s.Running ∧ s.params.misaligned = .fault ∧ s.exMem.valid = true ∧ s.exMem.memWrite = true ∧
       aligned s.exMem.aluResult = false) :=
  ⟨⟨by decide, by decide, by decide, by decide, _, rfl⟩, by decide⟩

theorem test_witness_StepKeepsMemoryCanonical :
    let s := memOnly (storeInMem 20 7) [(3, 1)] .default
    s.MemoryCanonical ∧ ∃ t, step s = .next t := ⟨by decide, _, rfl⟩

theorem test_witness_PcStaysAligned : (stage beqWord 0).PcAligned ∧ ∃ t, step (stage beqWord 0) = .next t :=
  ⟨by decide, _, rfl⟩

/-- A load in EX whose consumer is in ID, behind an ALU instruction in MEM and one in WB. -/
def busy : State := { stage lwWord useWord with exMem := aluInMem 0 5, memWb := aluInWb 2 6 }

theorem test_busy_coherent : busy.Coherent := by constructor <;> decide

theorem test_witness_StepKeepsCoherent : busy.Coherent ∧ ∃ t, step busy = .next t := ⟨test_busy_coherent, _, rfl⟩

/-- With register 0 pending, and with no write to it pending. -/
theorem test_witness_OperandsAreNewestButRegisterZero :
    (busy.Coherent ∧ busy.Running ∧ busy.idEx.valid = true ∧ busy.noPendingZeroWrite = false) ∧
    (stage addWord 0).Coherent ∧ (stage addWord 0).Running ∧ (stage addWord 0).idEx.valid = true ∧
      (stage addWord 0).noPendingZeroWrite = true :=
  ⟨⟨test_busy_coherent, by decide⟩, by constructor <;> decide, by decide⟩

theorem test_stage_jump_coherent : (stage jWord addWord).Coherent := by constructor <;> decide

theorem test_witness_NoStallWithRedirect :
    (stage jWord addWord).Coherent ∧ (stage jWord addWord).Running ∧ (stage jWord addWord).redirectNow = true ∧
      ∃ t, step (stage jWord addWord) = .next t ∧ ∃ u, step t = .next u :=
  ⟨test_stage_jump_coherent, by decide, by decide, _, rfl, _, rfl⟩

/-- A load in MEM with an unrelated word in EX; a stalled consumer of register 2, and one of register 0. -/
theorem test_witness_LoadedWordReachesItsConsumer :
    (let s : State := { stage addWord 0 with exMem := loadInMem 5 0 }
     s.Coherent ∧ s.idEx.valid = true ∧ s.exMem.memToReg = true) ∧
    (busy.Coherent ∧ busy.Running ∧ busy.stallNow = true ∧ busy.idEx.rt ≠ 0 ∧
      ∃ t, step busy = .next t ∧ ∃ u, step t = .next u) ∧
    (let s := stage 0x8C000000 addiWord
     s.Coherent ∧ s.Running ∧ s.stallNow = true ∧ s.idEx.rt = 0 ∧ ∃ t, step s = .next t ∧ ∃ u, step t = .next u) :=
  ⟨⟨by constructor <;> decide, by decide⟩, ⟨test_busy_coherent, by decide, by decide, by decide, _, rfl, _, rfl⟩,
    by constructor <;> decide, by decide, by decide, by decide, _, rfl, _, rfl⟩

theorem test_witness_EveryInstructionCompletes :
    (stage addWord 0).misalignedInMem = false ∧
    ∀ rs rt rd z funct, Instr.add 1 2 3 0 ≠ .unimplementedRType rs rt rd z funct :=
  ⟨by decide, fun _ _ _ _ _ h => by cases h⟩

theorem test_witness_AddEffect :
    (stage addWord 0).Executing (.add 1 2 3 0) ∧ (stage 0x00000020 0).Executing (.add 0 0 0 0) :=
  ⟨⟨by constructor <;> decide, by decide, by decide, by decide⟩, by constructor <;> decide, by decide, by decide, by decide⟩

theorem test_witness_AddiEffect : (stage addiWord 0).Executing (.addi 0 1 5) :=
  ⟨by constructor <;> decide, by decide, by decide, by decide⟩

theorem test_witness_LwEffect : busy.Executing (.lw 0 2 0) := ⟨test_busy_coherent, by decide, by decide, by decide⟩

theorem test_witness_SwEffect :
    (stage swWord 0).Executing (.sw 0 3 0) ∧ (stage swWord 0).MemoryCanonical :=
  ⟨⟨by constructor <;> decide, by decide, by decide, by decide⟩, by decide⟩

/-- Operands equal, and operands unequal (register 1 forwarded from MEM). -/
theorem test_witness_BeqEffect :
    ((stage beqWord 0).Executing (.beq 0 0 0xFFFF) ∧ (stage beqWord 0).received 0 = (stage beqWord 0).received 0) ∧
    (let s : State := { stage 0x10200005 0 with exMem := aluInMem 1 1 }
     s.Executing (.beq 1 0 5) ∧ s.received 1 ≠ s.received 0) :=
  ⟨⟨⟨by constructor <;> decide, by decide, by decide, by decide⟩, rfl⟩,
    ⟨by constructor <;> decide, by decide, by decide, by decide⟩, by decide⟩

theorem test_witness_JumpEffect : (stage jWord addWord).Executing (.j 3) :=
  ⟨test_stage_jump_coherent, by decide, by decide, by decide⟩

theorem test_witness_HaltEffect :
    ({ stage hltWord 0 with exMem := loadInMem 4 0, memWb := aluInWb 5 1 } : State).Executing (.hlt 0) :=
  ⟨by constructor <;> decide, by decide, by decide, by decide⟩

theorem test_witness_UnknownOpcodeEffect :
    (Instr.unknownOpcode 0x01 0).wellFormed = true ∧ (stage unkWord 0).Executing (.unknownOpcode 0x01 0) :=
  ⟨by decide, by constructor <;> decide, by decide, by decide, by decide⟩

/-- An instruction with a destination, and one with none. -/
theorem test_witness_OnlyAddAddiLwWriteRegisters :
    (∃ t, exec (.lw 0 2 0) (stage lwWord 0) = .next t) ∧ destinationReg (.lw 0 2 0) = some 2 ∧
    ∃ t, exec (.sw 0 3 0) (stage swWord 0) = .next t :=
  ⟨⟨_, rfl⟩, rfl, _, rfl⟩

theorem test_witness_StepIsTheCycleOfTheLatches : State.reset.Running := by decide

theorem test_witness_StepRunsTheWordInEx :
    (stage addWord swWord).Running ∧ (stage addWord swWord).InEx addWord := by decide

theorem test_witness_FetchedWordRunsInTheThirdCycle :
    State.reset.Running ∧ State.reset.ifId = IfId.bubble ∧ State.reset.idEx = IdEx.bubble ∧
      State.reset.misalignedInMem = false := by decide

theorem test_witness_PlacedWordRunsNext : 0xFFFFFFFF < 2 ^ 32 := by decide

/-- An instruction in EX; a bubble in EX. -/
theorem test_witness_PipelineRefinesOneAtATime :
    (busy.Coherent ∧ busy.Running ∧ busy.idEx.valid = true ∧ ∃ t, step busy = .next t ∧ t.misalignedInMem = false) ∧
    State.reset.Coherent ∧ State.reset.Running ∧ State.reset.idEx.valid = false ∧
      ∃ t, step State.reset = .next t ∧ t.misalignedInMem = false :=
  ⟨⟨test_busy_coherent, by decide, by decide, _, rfl, by decide⟩,
    by constructor <;> decide, by decide, by decide, _, rfl, by decide⟩

/-- The program that is one HLT. -/
def haltProgram : State := State.load (bytesOfWord hltWord) .default

theorem test_witness_HaltedRunAgreesWithOneAtATime :
    (∀ a : Word, aligned a = true → destinationReg (decodeWord (haltProgram.fetchWord a)) ≠ some 0) ∧
      (haltProgram.clockTimes 3).halted = true := by
  refine ⟨fun a _ => ?_, by decide⟩
  by_cases h : a.toNat < 4
  · have hb : a = 0 ∨ a = 1 ∨ a = 2 ∨ a = 3 := by bv_omega
    rcases hb with rfl | rfl | rfl | rfl <;> decide
  · have hz : haltProgram.fetchWord a = 0 := by
      have past : ∀ k, byteAt 4 haltProgram.imem a k = 0#8 := fun k => if_neg (by omega)
      show readWord 4 haltProgram.imem a = 0
      unfold readWord
      rw [past, past, past, past]
      decide
    rw [hz]
    decide

/-- The cycles of the shortest halting run. -/
theorem test_witness_CycleCountOfAHaltedRun :
    (haltProgram.clockTimes 3).halted = true ∧ (haltProgram.clockTimes 3).cycles = 3 ∧
      (haltProgram.clockTimes 3).cpi.isSome = true := by
  refine ⟨by decide, by decide, ?_⟩
  have h : (haltProgram.clockTimes 3).retired = 1 := by decide
  simp [State.cpi, h]

theorem test_witness_FirstInstructionRetiresAtEdgeThree :
    ∃ t u v, step haltProgram = .next t ∧ step t = .next u ∧ step u = .next v := ⟨_, _, _, rfl, rfl, rfl⟩

/-- The farthest label a BEQ at 8 reaches, and the highest a J does. -/
theorem test_witness_LabelsResolveToTheirAddress :
    labelOffset 8 (12 + 4 * 32767) = some 0x7FFF ∧ labelIndex (2 ^ 28 - 4) = some 0x3FFFFFF := by decide

end Sys2Proof.Tests
end

/-! SUPPORT. The step is the clock cycle read off the latches (40_pipeline.md R143): the instruction a word decodes to, what ID
latches for it, the cycle of each instruction, and the edge a running step takes. -/

namespace Sys2Proof

/-! ### The instruction a word decodes to -/

/-- All that decoding a word can give, with what the opcode and function fields then are (30_encoding.md R86-R88). -/
theorem decodeWord_cases {P : Instr → Prop} (w : Word)
    (add : opcodeField w = 0x00#6 → functField w = 0x20#6 →
      P (.add (rsField w) (rtField w) (rdField w) (shamtField w)))
    (unimplementedRType : opcodeField w = 0x00#6 → functField w ≠ 0x20#6 →
      P (.unimplementedRType (rsField w) (rtField w) (rdField w) (shamtField w) (functField w)))
    (j : opcodeField w = 0x02#6 → P (.j (targetField w)))
    (beq : opcodeField w = 0x04#6 → P (.beq (rsField w) (rtField w) (immField w)))
    (addi : opcodeField w = 0x08#6 → P (.addi (rsField w) (rtField w) (immField w)))
    (lw : opcodeField w = 0x23#6 → P (.lw (rsField w) (rtField w) (immField w)))
    (sw : opcodeField w = 0x2B#6 → P (.sw (rsField w) (rtField w) (immField w)))
    (hlt : opcodeField w = 0x3F#6 → P (.hlt (targetField w)))
    (unknownOpcode : opcodeField w ∉ knownOpcodes → P (.unknownOpcode (opcodeField w) (targetField w))) :
    P (decodeWord w) := by
  by_cases hk : opcodeField w ∈ knownOpcodes
  · simp only [knownOpcodes, List.mem_cons, List.not_mem_nil, or_false] at hk
    rcases hk with h | h | h | h | h | h | h
    · by_cases hf : functField w = 0x20#6
      · simpa [decodeWord, h, hf] using add h hf
      · simpa [decodeWord, h, hf] using unimplementedRType h hf
    · simpa [decodeWord, h] using j h
    · simpa [decodeWord, h] using beq h
    · simpa [decodeWord, h] using addi h
    · simpa [decodeWord, h] using lw h
    · simpa [decodeWord, h] using sw h
    · simpa [decodeWord, h] using hlt h
  · have unknown := unknownOpcode hk
    simp only [knownOpcodes, List.mem_cons, List.not_mem_nil, or_false, not_or] at hk
    simpa [decodeWord, hk] using unknown

/-- The register fields of a word lie inside its target field (30_encoding.md R81, R83). -/
@[simp] theorem extract_rs_targetField (w : Word) : (targetField w).extractLsb' 21 5 = rsField w :=
  BitVec.extractLsb'_extractLsb'_of_le (by decide)

@[simp] theorem extract_rt_targetField (w : Word) : (targetField w).extractLsb' 16 5 = rtField w :=
  BitVec.extractLsb'_extractLsb'_of_le (by decide)

end Sys2Proof

namespace Sys2Proof.Machine

open Sys2Proof Sys2Proof.Laws.Latched

/-! ### What ID latches for any word -/

/-- An unknown opcode raises no control line (40_pipeline.md R114). -/
theorem controlLines_unknown {op : BitVec 6} (h : op ∉ knownOpcodes) : controlLines op = {} := by
  simp only [knownOpcodes, List.mem_cons, List.not_mem_nil, or_false, not_or] at h
  simp [controlLines, h]

/-- A latch holds what ID latches for the well-formed instruction `i`, as far as EX uses it (40_pipeline.md R134). -/
structure IdEx.Holds (l : IdEx) (i : Instr) : Prop where
  wellFormed : i.wellFormed = true
  valid      : l.valid = true
  ctl        : l.ctl = controlOf i
  fields     : Fields i l

/-- Whatever the word, ID latches the instruction it decodes to. -/
theorem ofWord_holds_decodeWord (w pc4 a b : Word) : (IdEx.ofWord w pc4 a b).Holds (decodeWord w) := by
  apply decodeWord_cases (P := (IdEx.ofWord w pc4 a b).Holds)
  case add => exact fun h hf => ⟨rfl, rfl, by simp [h, controlLines, controlOf], by simp [Fields, hf]⟩
  case unimplementedRType =>
    exact fun h hf => ⟨by simpa [Instr.wellFormed] using hf, rfl, by simp [h, controlLines, controlOf], by simp [Fields]⟩
  case unknownOpcode =>
    exact fun h => ⟨by simpa [Instr.wellFormed] using h, rfl, controlLines_unknown h, by simp [Fields]⟩
  all_goals exact fun h => ⟨rfl, rfl, by simp [h, controlLines, controlOf], by simp [Fields]⟩

/-! ### The cycle of each instruction -/

/-- With an operation selected, the cycle of a latch raises nothing in EX. -/
theorem cycle_of_aluFn {s : State} {fn : AluFn} (h : aluControl s.idEx.ctl.aluOp s.idEx.funct = some fn) :
    s.cycle = s.finishCycle (.ok s.exStage) := by
  simp [State.cycle, h]

/-- The meaning of the instruction a latch holds is the cycle read off the latch. -/
theorem exec_eq_cycle {s : State} {i : Instr} (h : s.idEx.Holds i) : exec i s = s.cycle := by
  obtain ⟨hw, hv, hc, hf⟩ := h
  cases i <;> simp only [Fields, Instr.wellFormed, controlOf] at hf hw hc
  case unimplementedRType => simp_all [exec, execUnimplementedRType, State.cycle, aluControl]
  case beq =>
    rw [cycle_of_aluFn (fn := .subtract) (by simp [hc, aluControl])]
    simp [exec, execBeq, State.quietExMem, State.exStage, State.hazardStall, aluControl, hv, hc, hf]
  all_goals rw [cycle_of_aluFn (fn := .add) (by simp [hc, hf, aluControl])]
  case add => simp [exec, execAdd, State.exStage, State.hazardStall, aluControl, hv, hc, hf]
  case addi => simp [exec, execAddi, State.exStage, State.hazardStall, aluControl, hv, hc, hf]
  case j => simp [exec, execJ, State.quietExMem, State.exStage, State.hazardStall, aluControl, hv, hc, hf]
  case lw => simp [exec, execLw, State.effectiveAddress, State.exStage, State.hazardStall, aluControl, hv, hc, hf]
  case sw => simp [exec, execSw, State.effectiveAddress, State.exStage, State.hazardStall, aluControl, hv, hc, hf]
  case hlt => simp [exec, execHlt, State.quietExMem, State.exStage, State.hazardStall, aluControl, hv, hc, hf]
  case unknownOpcode =>
    simp [exec, execUnknownOpcode, State.quietExMem, State.exStage, State.hazardStall, aluControl, hv, hc, hf]

/-! ### The edge a running step takes -/

/-- What `instr?` finds in a latch, the latch holds. -/
theorem holds_of_instr?_eq_some {l : IdEx} {i : Instr} (h : l.instr? = some i) : l.Holds i := by
  obtain ⟨hl, rfl⟩ := instr?_eq_some h
  have held := ofWord_holds_decodeWord l.word l.pc4 l.rd1 l.rd2
  rwa [← hl] at held

/-- A cycle assembled from the instructions' meanings is the cycle read off the latches, whatever EX holds. -/
theorem runCycle_exec (s : State) : s.runCycle exec = s.cycle := by
  unfold State.runCycle
  split
  next i h => exact exec_eq_cycle (holds_of_instr?_eq_some h)
  next => rfl

/-- All that a running step which answers a next state can have done: nothing was misaligned in MEM, EX had no fault to raise,
and the edge of the EX stage was taken. -/
theorem step_next_edge {s t : State} (hr : s.Running) (h : step s = .next t) :
    s.misalignedInMem = false ∧ t = s.edge s.exStage ∧
      ¬(s.idEx.valid = true ∧ aluControl s.idEx.ctl.aluOp s.idEx.funct = none) := by
  rw [step_running hr, runCycle_exec] at h
  obtain ⟨hm, out, hex, ht⟩ := finishCycle_next h
  split at hex
  next => cases hex
  next hfault =>
    cases hex
    exact ⟨hm, ht, by simpa using hfault⟩

/-- Only a valid instruction with `terminate` brings `terminate` into EX/MEM (40_pipeline.md R140). -/
theorem exStage_terminate (s : State) :
    s.exStage.exMem.terminate = true ↔ s.idEx.valid = true ∧ s.idEx.ctl.terminate = true := by
  cases h : s.idEx.valid <;> simp [State.exStage, h]

/-! ### A halted machine -/

/-- A halted machine's step answers the machine as it is (10_state.md R36). -/
theorem step_halted {s : State} (h : s.halted = true) : step s = .next s := by
  simp [step, h]

/-- No number of clock edges changes a state that one edge leaves as it is. -/
theorem clockTimes_of_step_self {s : State} (h : step s = .next s) (n : Nat) : s.clockTimes n = s := by
  induction n with
  | zero => rfl
  | succ n ih => rw [State.clockTimes, clock_next h, ih]

/-! ### The statements of 10_state.md -/

/-- Register 0 is never forwarded: both selections ask for another register (40_pipeline.md R125). -/
@[simp] theorem forwardSel_zero (s : State) : s.forwardSel 0 = 0 := by
  have clash : ∀ r : Reg, (r != 0#5 && r == 0#5) = false := fun r => by simp [bne]
  simp [State.forwardSel, Bool.and_assoc, clash]

/-- Settles O8: register 0 reads back what is put there, and no state forwards it. -/
theorem registerZeroIsStoredAndNeverForwarded : Obligations.RegisterZeroIsStoredAndNeverForwarded :=
  ⟨fun x v => Regs.get_put_same x 0 v, forwardSel_zero⟩

/-- Settles O20: the edge copies `terminate` of a valid instruction in EX into EX/MEM and the halt flag alike, and a halted
state is a fixed point of the clock. -/
theorem haltTakesEffectAndStays : Obligations.HaltTakesEffectAndStays := by
  refine ⟨rfl, fun s t hr h => ?_, fun s hh => ⟨clockTimes_of_step_self (step_halted hh), rfl⟩⟩
  obtain ⟨-, rfl, -⟩ := step_next_edge hr h
  exact ⟨Iff.rfl, exStage_terminate s⟩

end Sys2Proof.Machine

/-! SUPPORT. The two stores as the machine uses them (20_memory.md): the bytes of a word read and of a word written, what the
edge does with the access in MEM, and what a running step answers when something is to be raised and when nothing is. -/

namespace Sys2Proof

/-- Two words with the same four bytes are the same: bit i of a word is bit i % 8 of its byte i / 8. -/
theorem word_ext_bytes {v w : Word} (h : ∀ k < 4, byteOfWord v k = byteOfWord w k) : v = w := by
  ext i hi
  have bit := congrArg (fun byte : Byte => byte.getLsbD (i % 8)) (h (i / 8) (by omega))
  simpa [byteOfWord, Nat.mod_lt, Nat.div_add_mod, hi] using bit

/-- A word is its four bytes put together again (20_memory.md R51). -/
@[simp] theorem wordOfBytes_byteOfWord (v : Word) :
    wordOfBytes (byteOfWord v 0) (byteOfWord v 1) (byteOfWord v 2) (byteOfWord v 3) = v := by
  apply word_ext_bytes
  intro k hk
  interval_cases k <;> simp

end Sys2Proof

namespace Sys2Proof.Machine

open Sys2Proof Sys2Proof.Config

/-! ### The bytes of an access -/

/-- Each byte of a word read is the byte found at its own index (20_memory.md R53). -/
theorem byteOfWord_readWord (size : Nat) (m : Memory) (a : Word) {k : Nat} (hk : k < 4) :
    byteOfWord (readWord size m a) k = byteAt size m a k := by
  interval_cases k <;> simp [readWord]

/-- A store after four bytes are written, each if it lies below MEM_SIZE (20_memory.md R54). -/
theorem read_writeBytes {size : Nat} {m : Memory} (h : Memory.wf m = true) (a v : Word) (b : Nat) :
    Memory.read (writeBytes size m a v) b =
      if a.toNat ≤ b ∧ b < a.toNat + 4 ∧ b < size then byteOfWord v (b - a.toNat) else Memory.read m b := by
  have wf := fun {m : Memory} (h : Memory.wf m = true) => writeByteInBounds_wf (size := size) h
  rw [writeBytes, read_writeByteInBounds (wf (wf (wf h _ _) _ _) _ _), read_writeByteInBounds (wf (wf h _ _) _ _),
    read_writeByteInBounds (wf h _ _), read_writeByteInBounds h]
  by_cases hb : a.toNat ≤ b ∧ b < a.toNat + 4
  · obtain ⟨k, rfl⟩ := Nat.exists_eq_add_of_le hb.1
    have hk : k < 4 := by omega
    interval_cases k <;> simp
  · repeat rw [if_neg (by omega)]

/-- With all four bytes below MEM_SIZE the two policies agree (20_memory.md R54). -/
theorem writeWord_of_le {policy : OobWritePolicy} {size : Nat} {a : Word} (m : Memory) (v : Word)
    (ha : a.toNat + 4 ≤ size) : writeWord policy size m a v = writeBytes size m a v := by
  cases policy
  case wholeWord => exact if_pos ha
  case perByte => rfl

/-- Under `whole_word` a store writes all four bytes or none (20_memory.md R54). -/
theorem read_writeWord_wholeWord {size : Nat} {m : Memory} (h : Memory.wf m = true) (a v : Word) (b : Nat) :
    Memory.read (writeWord .wholeWord size m a v) b =
      if a.toNat ≤ b ∧ b < a.toNat + 4 ∧ a.toNat + 4 ≤ size then byteOfWord v (b - a.toNat) else Memory.read m b := by
  by_cases ha : a.toNat + 4 ≤ size
  · rw [writeWord_of_le m v ha, read_writeBytes h]
    exact if_congr (by omega) rfl rfl
  · rw [writeWord, if_neg ha, if_neg (by omega)]

/-- A word whose four bytes lie below MEM_SIZE is read back as it was written. -/
theorem readWord_writeWord {policy : OobWritePolicy} {size : Nat} {m : Memory} (h : Memory.wf m = true) {a : Word}
    (v : Word) (ha : a.toNat + 4 ≤ size) : readWord size (writeWord policy size m a v) a = v := by
  have stored : ∀ k < 4, byteAt size (writeWord policy size m a v) a k = byteOfWord v k := fun k hk => by
    rw [byteAt, if_pos (by omega), writeWord_of_le m v ha, read_writeBytes h, if_pos (by omega), Nat.add_sub_cancel_left]
  simp [readWord, stored]

/-! ### The access in MEM -/

/-- The instruction in MEM stores its word at the edge (20_memory.md R56). -/
theorem dmemNext_of_memWrite {s : State} (h : s.exMem.memWrite = true) :
    s.dmemNext = writeWord s.params.oobWrite s.memSize s.dmem s.exMem.aluResult s.exMem.storeData :=
  if_pos h

/-- Without `mem_write` in MEM the data store stays (20_memory.md R56). -/
theorem dmemNext_of_not_memWrite {s : State} (h : s.exMem.memWrite = false) : s.dmemNext = s.dmem := by
  simp [State.dmemNext, h]

/-- A valid instruction leaves MEM with the word the data store holds at its address before the edge (20_memory.md R55). -/
theorem memStage_memData {s : State} (h : s.exMem.valid = true) : s.memStage.memData = s.loadWord s.exMem.aluResult := by
  simp [State.memStage, h]

/-- What the MEM stage's check finds: a valid access at an unaligned address, under the fault policy (20_memory.md R57). -/
theorem misalignedInMem_iff (s : State) :
    s.misalignedInMem = true ↔ s.params.misaligned = .fault ∧ s.exMem.valid = true ∧
      (s.exMem.memRead = true ∨ s.exMem.memWrite = true) ∧ aligned s.exMem.aluResult = false := by
  simp [State.misalignedInMem, aligned, and_assoc]

/-! ### What a running step answers -/

/-- ALU control selects no operation exactly for a function code that is not ADD's (40_pipeline.md R118). -/
theorem aluControl_eq_none {op : AluOp} {funct : BitVec 6} :
    aluControl op funct = none ↔ op = .passthrough ∧ funct ≠ 0x20#6 := by
  cases op <;> simp [aluControl]

/-- A cycle with a misaligned access in MEM raises it, whatever the EX stage found. -/
theorem finishCycle_misaligned {s : State} (h : s.misalignedInMem = true) (ex : Except Fault ExOut) :
    s.finishCycle ex = .fault (.misalignedData s.exMem.aluResult) := by
  simp [State.finishCycle, raise, h]

/-- A misaligned access in MEM is what the step raises, whatever is in EX (60_exceptions.md R207). -/
theorem step_of_misalignedInMem {s : State} (hr : s.Running) (hm : s.misalignedInMem = true) :
    step s = .fault (.misalignedData s.exMem.aluResult) := by
  rw [step_running hr, runCycle_exec, State.cycle, finishCycle_misaligned hm]

/-- With nothing to raise in MEM or in EX, a running step takes the edge. -/
theorem step_eq_next_edge {s : State} (hr : s.Running) (hm : s.misalignedInMem = false)
    (hex : ¬(s.idEx.valid = true ∧ aluControl s.idEx.ctl.aluOp s.idEx.funct = none)) :
    step s = .next (s.edge s.exStage) := by
  rw [step_running hr, runCycle_exec, State.cycle, if_neg (by simpa using hex), finishCycle_ok hm]

/-- All that a running step can raise: the access of the instruction in MEM first, else the function code of the one in EX
(60_exceptions.md R206, R207). -/
theorem step_fault_cases {s : State} {f : Fault} (hr : s.Running) (h : step s = .fault f) :
    (s.misalignedInMem = true ∧ f = .misalignedData s.exMem.aluResult) ∨
      (s.misalignedInMem = false ∧ s.idEx.valid = true ∧ aluControl s.idEx.ctl.aluOp s.idEx.funct = none ∧
        f = .unimplementedFunct (s.idEx.pc4 - 4) s.idEx.funct) := by
  rw [step_running hr, runCycle_exec] at h
  obtain hmem | ⟨hm, hex⟩ := finishCycle_fault h
  · exact .inl hmem
  · split at hex
    next hfault =>
      cases hex
      obtain ⟨hv, hn⟩ : s.idEx.valid = true ∧ aluControl s.idEx.ctl.aluOp s.idEx.funct = none := by simpa using hfault
      exact .inr ⟨hm, hv, hn, rfl⟩
    next => cases hex

/-- No step changes what a fetch depends on: the instruction store and its size (20_memory.md R50, R65). -/
theorem step_keeps_imem_memSize {s t : State} (h : step s = .next t) : t.imem = s.imem ∧ t.memSize = s.memSize := by
  obtain ⟨-, rfl⟩ | ⟨hr, -⟩ := step_next_cases h
  · exact ⟨rfl, rfl⟩
  · obtain ⟨-, rfl, -⟩ := step_next_edge hr h
    exact ⟨rfl, rfl⟩

/-! ### The statements of 20_memory.md -/

/-- Settles O12: the four byte writes of a store, each under its policy's bounds check, and the edge of a cycle in which
neither MEM nor EX has anything to raise. -/
theorem bytesWrittenToAStore : Obligations.BytesWrittenToAStore := by
  refine ⟨fun size m a v h => ⟨read_writeWord_wholeWord h a v, read_writeBytes h a v⟩, fun s hr hw hb hop => ?_⟩
  have hm : s.misalignedInMem = false := misalignedInMem_bytewise hb
  have hex : ¬(s.idEx.valid = true ∧ aluControl s.idEx.ctl.aluOp s.idEx.funct = none) :=
    fun ⟨hv, hn⟩ => hop hv (aluControl_eq_none.mp hn).1
  exact ⟨s.edge s.exStage, step_eq_next_edge hr hm hex, dmemNext_of_memWrite hw⟩

/-- Settles O14: the edge stores the word of the instruction in MEM, and a word in bounds is read back as written. -/
theorem storeIsSeenByTheNextRead : Obligations.StoreIsSeenByTheNextRead := by
  intro s t hr h
  obtain ⟨-, rfl, -⟩ := step_next_edge hr h
  refine ⟨dmemNext_of_memWrite, fun hw hcanon ha => ?_, fun hbubble => ?_⟩
  · obtain ⟨-, hwf, -, -⟩ := hcanon
    rw [State.loadWord, edge_dmem, edge_memSize, dmemNext_of_memWrite hw, readWord_writeWord hwf _ ha]
  · exact dmemNext_of_not_memWrite (by rw [hbubble, exMem_bubble_memWrite])

/-- Settles O25: the MEM stage's check never fires under the bytewise policy, so the access is made where it stands, and
under the fault policy it comes before anything EX raises. -/
theorem misalignedAccessByPolicy : Obligations.MisalignedAccessByPolicy := by
  refine ⟨fun s hb => ?_, fun s hr hp hv ha hunaligned => ?_⟩
  · have hm : s.misalignedInMem = false := misalignedInMem_bytewise hb
    refine ⟨hm, fun address hr hf => ?_, fun t hr h hv => ?_⟩
    · obtain ⟨hm', -⟩ | ⟨-, -, -, hne⟩ := step_fault_cases hr hf
      · exact Bool.false_ne_true (hm.symm.trans hm')
      · cases hne
    · obtain ⟨-, rfl, -⟩ := step_next_edge hr h
      exact ⟨memStage_memData hv, dmemNext_of_memWrite⟩
  · exact step_of_misalignedInMem hr ((misalignedInMem_iff s).mpr ⟨hp, hv, ha, hunaligned⟩)

/-- Settles O11: the word a read puts together has the store's bytes in order. -/
theorem bytesReadFromAStore : Obligations.BytesReadFromAStore :=
  ⟨fun size m a _ hk => byteOfWord_readWord size m a hk, fun _ _ => ⟨rfl, rfl⟩⟩

/-- Settles O15: a fetch is a function of the instruction store and MEM_SIZE, which every step keeps. -/
theorem storesNeverChangeFetch : Obligations.StoresNeverChangeFetch := by
  intro s t h
  obtain ⟨himem, hsize⟩ := step_keeps_imem_memSize h
  exact ⟨himem, fun a => by rw [State.fetchWord, State.fetchWord, himem, hsize]⟩

end Sys2Proof.Machine

/-! SUPPORT. One clock edge of the pipeline (40_pipeline.md): the units the EX stage reads, where it redirects, the next value
of the PC, the latches and the registers, and the cycles that have a bubble in EX. -/

namespace Sys2Proof.Machine

open Sys2Proof

/-! ### The units of the datapath -/

/-- The ALU's zero output is 1 exactly when its result is 0 (40_pipeline.md R120). -/
theorem zeroOutput_iff (v : Word) : zeroOutput v = true ↔ v = 0 := beq_iff_eq

/-- A difference is 0 exactly for equal operands, so a BEQ is taken on equality (40_pipeline.md R120, R130). -/
theorem zeroOutput_subtract (a b : Word) : zeroOutput (alu (some .subtract) a b) = true ↔ a = b :=
  (zeroOutput_iff _).trans sub_eq_zero

/-- The bypass of a read port applies to every index, 0 included (40_pipeline.md R121). -/
theorem rfRead_eq (s : State) (i : Reg) :
    s.rfRead i = if s.memWb.regWrite = true ∧ s.memWb.writeReg = i then s.memWb.value else s.reg i :=
  (rfRead_eq_writeBack s i).trans (MemWb.get_writeBack s.memWb s.regs i)

/-- The forwarding unit's chain of choices (40_pipeline.md R125), its comparisons read as propositions. -/
theorem forwardSel_eq (s : State) (src : Reg) :
    s.forwardSel src =
      if s.exMem.regWrite = true ∧ s.exMem.writeReg ≠ 0 ∧ s.exMem.writeReg = src then 2
      else if s.memWb.regWrite = true ∧ s.memWb.writeReg ≠ 0 ∧ s.memWb.writeReg = src then 1 else 0 := by
  simp only [State.forwardSel, Bool.and_eq_true, bne_iff_ne, beq_iff_eq, and_assoc]
  rfl

/-- EX/MEM's producer is chosen whenever it writes the register, other than register 0. -/
theorem forwardSel_eq_two (s : State) (src : Reg) :
    s.forwardSel src = 2 ↔ s.exMem.regWrite = true ∧ s.exMem.writeReg ≠ 0 ∧ s.exMem.writeReg = src := by
  rw [forwardSel_eq]
  split
  next hex => exact iff_of_true rfl hex
  next hex => exact iff_of_false (by split <;> decide) hex

/-- MEM/WB's producer is chosen if EX/MEM does not write the register. Register 0 in EX/MEM needs no exception: the register
MEM/WB writes is the same one, and is not 0. -/
theorem forwardSel_eq_one (s : State) (src : Reg) :
    s.forwardSel src = 1 ↔ s.memWb.regWrite = true ∧ s.memWb.writeReg ≠ 0 ∧ s.memWb.writeReg = src ∧
      ¬(s.exMem.regWrite = true ∧ s.exMem.writeReg = src) := by
  rw [forwardSel_eq]
  split
  next hex =>
    obtain ⟨hw, -, hsrc⟩ := hex
    exact iff_of_false (by decide) fun ⟨_, _, _, hnot⟩ => hnot ⟨hw, hsrc⟩
  next hex =>
    split
    next hwb =>
      obtain ⟨hw, hne, rfl⟩ := hwb
      exact iff_of_true rfl ⟨hw, hne, rfl, fun ⟨hw', hsame⟩ => hex ⟨hw', hsame ▸ hne, hsame⟩⟩
    next hwb => exact iff_of_false (by decide) fun ⟨hw, hne, hsrc, _⟩ => hwb ⟨hw, hne, hsrc⟩

/-- There is no fourth selection (40_pipeline.md R125). -/
theorem forwardSel_cases (s : State) (src : Reg) :
    s.forwardSel src = 0 ∨ s.forwardSel src = 1 ∨ s.forwardSel src = 2 := by
  rw [forwardSel_eq]
  split
  next => exact .inr (.inr rfl)
  next =>
    split
    next => exact .inr (.inl rfl)
    next => exact .inl rfl

/-- Operand A by its selection (40_pipeline.md R127). -/
theorem opA_eq (s : State) (src : Reg) :
    s.opA src = if s.forwardSel src = 2 then s.exMem.aluResult
      else if s.forwardSel src = 1 then s.memWb.value else s.idEx.rd1 := by
  unfold State.opA
  rcases forwardSel_cases s src with h | h | h <;> rw [h] <;> rfl

/-- HazardStall compares the load's destination with the raw register fields of the word in IF/ID (40_pipeline.md R123). -/
theorem hazardStall_iff (s : State) :
    s.hazardStall = true ↔ s.idEx.ctl.memRead = true ∧
      (s.idEx.rt = rsField s.ifId.instr ∨ s.idEx.rt = rtField s.ifId.instr) := by
  simp only [State.hazardStall, State.hazardOn, Bool.and_eq_true, Bool.or_eq_true, beq_iff_eq]

/-- A fetch at or beyond MEM_SIZE reads 0: each of its four bytes lies past the end (20_memory.md R53). -/
theorem fetchWord_of_memSize_le {s : State} {a : Word} (h : s.memSize ≤ a.toNat) : s.fetchWord a = 0 := by
  have past : ∀ k, byteAt s.memSize s.imem a k = 0 := fun k => if_neg (by omega)
  simp only [State.fetchWord, readWord, past]
  decide

/-! ### What the EX stage hands to the edge -/

/-- A branch is in EX and its ALU result is 0 (40_pipeline.md R130). -/
def State.branchTaken (s : State) : Bool :=
  s.idEx.ctl.branch && zeroOutput (alu (aluControl s.idEx.ctl.aluOp s.idEx.funct) (s.opA s.idEx.rs)
    (if s.idEx.ctl.aluSrc then s.idEx.imm else s.opB s.idEx.rt))

/-- Where a redirect takes the PC: to a J's own target, else to the branch target (40_pipeline.md R130, R131). -/
def State.redirectTarget (s : State) : Word :=
  if s.idEx.ctl.jump then jumpTarget s.idEx.target else branchTarget s.idEx.pc4 s.idEx.imm

/-- The EX stage's redirect, line by line: the jump line first (40_pipeline.md R132). -/
theorem exStage_redirect (s : State) :
    s.exStage.redirect = if s.idEx.ctl.jump then some (jumpTarget s.idEx.target)
      else if s.branchTaken then some (branchTarget s.idEx.pc4 s.idEx.imm) else none := rfl

/-- A J or a taken BEQ, and nothing else, redirects (40_pipeline.md R132). -/
theorem redirectNow_eq (s : State) : s.redirectNow = (s.idEx.ctl.jump || s.branchTaken) := by
  rw [State.redirectNow, exStage_redirect]
  cases s.idEx.ctl.jump
  case true => rfl
  case false => cases s.branchTaken <;> rfl

theorem exStage_redirect_of_redirectNow {s : State} (h : s.redirectNow = true) :
    s.exStage.redirect = some s.redirectTarget := by
  rw [redirectNow_eq] at h
  rw [exStage_redirect, State.redirectTarget]
  cases hj : s.idEx.ctl.jump
  case true => rfl
  case false =>
    have htaken : s.branchTaken = true := by simpa [hj] using h
    rw [htaken]
    rfl

theorem exStage_redirect_of_not_redirectNow {s : State} (h : s.redirectNow = false) : s.exStage.redirect = none :=
  Option.not_isSome_iff_eq_none.mp (Bool.not_eq_true _ ▸ h)

@[simp] theorem exStage_stall (s : State) : s.exStage.stall = s.hazardStall := rfl

/-- EX/MEM takes a valid instruction from one and a bubble from a bubble (40_pipeline.md R138). -/
@[simp] theorem exStage_valid (s : State) : s.exStage.exMem.valid = s.idEx.valid := by
  cases h : s.idEx.valid <;> simp [State.exStage, h]

/-- With `alu_src` the ALU's second operand is the immediate (40_pipeline.md R127). -/
theorem exStage_aluResult_of_aluSrc {s : State} (hv : s.idEx.valid = true) (himm : s.idEx.ctl.aluSrc = true) :
    s.exStage.exMem.aluResult =
      alu (aluControl s.idEx.ctl.aluOp s.idEx.funct) (s.opA s.idEx.rs) s.idEx.imm := by
  simp [State.exStage, hv, himm]

/-- A bubble in EX hands on a bubble, redirects nothing and stalls nothing (10_state.md R31). -/
theorem exStage_of_bubble {s : State} (h : s.idEx = IdEx.bubble) : s.exStage = { exMem := ExMem.bubble } := by
  simp [State.exStage, State.hazardStall, h]

/-! ### The next values of the PC, ID/EX and the registers -/

/-- The PC after a cycle: a redirect first, then a stall (40_pipeline.md R137). -/
theorem pcNext_exStage (s : State) :
    s.pcNext s.exStage.redirect s.hazardStall =
      if s.redirectNow then s.redirectTarget else if s.hazardStall then s.pc else s.pc + 4 := by
  cases h : s.redirectNow
  case true => rw [exStage_redirect_of_redirectNow h]; rfl
  case false => rw [exStage_redirect_of_not_redirectNow h]; rfl

/-- ID/EX after a cycle (40_pipeline.md R115, R134). -/
theorem idExNext_exStage (s : State) :
    s.idExNext s.exStage.redirect s.hazardStall =
      if s.redirectNow = true ∨ s.hazardStall = true ∨ s.ifId.valid = false then IdEx.bubble
      else IdEx.ofWord s.ifId.instr s.ifId.pc4 (s.rfRead (rsField s.ifId.instr)) (s.rfRead (rtField s.ifId.instr)) := by
  exact if_congr (by simp only [State.redirectNow, Bool.or_eq_true, Bool.not_eq_true', or_assoc]) rfl rfl

/-- A word in IF/ID that is neither squashed nor held is decoded with the register reads of its cycle. -/
theorem idExNext_of_valid {s : State} (h : s.ifId.valid = true) : s.idExNext none false =
    IdEx.ofWord s.ifId.instr s.ifId.pc4 (s.rfRead (rsField s.ifId.instr)) (s.rfRead (rtField s.ifId.instr)) := by
  rw [idExNext_advance, if_pos h]

/-- The registers after an edge that does not halt the machine: the write port stores one (40_pipeline.md R122). -/
theorem reg_edge_running {s : State} {ex : ExOut} (h : ex.exMem.terminate = false) (r : Reg) :
    (s.edge ex).reg r = if s.memWb.regWrite = true ∧ s.memWb.writeReg = r then s.memWb.value else s.reg r := by
  rw [State.reg, edge_regs, h]
  exact MemWb.get_writeBack s.memWb s.regs r

/-- The registers after the halting edge: the drain of what enters MEM/WB comes after the write port (40_pipeline.md R141). -/
theorem reg_edge_halting {s : State} {ex : ExOut} (h : ex.exMem.terminate = true) (r : Reg) :
    (s.edge ex).reg r =
      if s.memStage.regWrite = true ∧ s.memStage.writeReg = r then s.memStage.value
      else if s.memWb.regWrite = true ∧ s.memWb.writeReg = r then s.memWb.value else s.reg r := by
  rw [State.reg, edge_regs, h]
  calc Regs.get (s.memStage.writeBack (s.memWb.writeBack s.regs)) r
    _ = _ := MemWb.get_writeBack s.memStage (s.memWb.writeBack s.regs) r
    _ = _ := by rw [MemWb.get_writeBack s.memWb s.regs r]; rfl

/-! ### Running steps in a row -/

/-- A step of a running machine records no fault when it answers a next state, so only a halt stops the machine there. -/
theorem running_of_step_next {s t : State} (hr : s.Running) (h : step s = .next t) (hh : t.halted = false) :
    t.Running := by
  obtain ⟨-, rfl, -⟩ := step_next_edge hr h
  exact ⟨hh, hr.2⟩

/-- The step of a cycle with a bubble in EX: nothing retires, redirects or stalls. -/
theorem step_next_of_bubble {s t : State} (hr : s.Running) (hb : s.idEx = IdEx.bubble) (h : step s = .next t) :
    t = s.edge { exMem := ExMem.bubble } := by
  obtain ⟨-, rfl, -⟩ := step_next_edge hr h
  rw [exStage_of_bubble hb]

/-- The two steps after a squash: the two bubbles retire nothing while the word at the PC is fetched and decoded. -/
theorem two_steps_of_bubbles {t u v : State} (hr : t.Running) (hifId : t.ifId = IfId.bubble) (hidEx : t.idEx = IdEx.bubble)
    (hu : step t = .next u) (hv : step u = .next v) :
    u.retired = t.retired ∧ v.retired = t.retired ∧
      v.idEx = IdEx.ofWord (t.fetchWord t.pc) (t.pc + 4) (u.rfRead (rsField (t.fetchWord t.pc)))
        (u.rfRead (rtField (t.fetchWord t.pc))) := by
  have hedge : u = t.edge { exMem := ExMem.bubble } := step_next_of_bubble hr hidEx hu
  have hdecode : u.idEx = IdEx.bubble := by simp [hedge, idExNext_advance, hifId]
  have hfetch : u.ifId = ⟨true, t.fetchWord t.pc, t.pc + 4⟩ := by simp [hedge]
  have hretired : u.retired = t.retired := by simp [hedge]
  have hrunning : u.Running := running_of_step_next hr hu (by simp [hedge])
  obtain rfl := step_next_of_bubble hrunning hdecode hv
  refine ⟨hretired, hretired, ?_⟩
  rw [edge_idEx, idExNext_of_valid (by rw [hfetch]), hfetch]

/-! ### The statements of 40_pipeline.md -/

/-- Settles O5: each row of the table by evaluation; an unknown opcode matches none of them. -/
theorem controlUnitTable : Obligations.ControlUnitTable :=
  ⟨rfl, rfl, rfl, rfl, rfl, rfl, rfl, fun _ h => controlLines_unknown h⟩

/-- Settles O6: the zero output is a comparison with 0, and a difference is 0 for equal operands only. -/
theorem aluControlAndZeroOutput : Obligations.AluControlAndZeroOutput :=
  ⟨fun _ => ⟨rfl, rfl, rfl⟩, fun _ _ _ => zeroOutput_iff _, zeroOutput_subtract⟩

/-- Settles O7: a valid ID/EX was decoded at this edge, so its two values are this cycle's reads. -/
theorem readPortSeesTheWriteOfItsCycle : Obligations.ReadPortSeesTheWriteOfItsCycle := by
  refine ⟨rfRead_eq, fun s t hr h hv => ?_⟩
  obtain ⟨-, rfl, -⟩ := step_next_edge hr h
  rw [edge_idEx, exStage_stall, idExNext_exStage] at hv ⊢
  split at hv
  next => cases hv
  next hdecoded =>
    rw [if_neg hdecoded]
    exact ⟨rfl, rfl⟩

/-- Settles O9: the chain of selections, and operand A with an immediate beside it as the EX stage hands it on. -/
theorem forwardingPriority : Obligations.ForwardingPriority := by
  refine fun s src => ⟨forwardSel_eq_two s src, forwardSel_eq_one s src, forwardSel_cases s src, opA_eq s src,
    fun t hr h hv himm => ?_⟩
  obtain ⟨-, rfl, -⟩ := step_next_edge hr h
  exact exStage_aluResult_of_aluSrc hv himm

/-- Settles O16: the edge takes the PC and IF/ID from the EX stage's redirect and the hazard unit. -/
theorem nextPcAndFetchLatch : Obligations.NextPcAndFetchLatch := by
  refine ⟨fun s a ha => fetchWord_of_memSize_le ha, fun s t hr h => ?_⟩
  obtain ⟨-, rfl, -⟩ := step_next_edge hr h
  exact ⟨pcNext_exStage s, rfl⟩

/-- Settles O17: the fields the statement lists are those of `IdEx.ofWord`. -/
theorem nextDecodeLatch : Obligations.NextDecodeLatch := by
  intro s t hr h
  obtain ⟨-, rfl, -⟩ := step_next_edge hr h
  exact idExNext_exStage s

/-- Settles O18: EX/MEM's valid bit is ID/EX's, and the edge counts it. -/
theorem countersAdvance : Obligations.CountersAdvance := by
  intro s t hr h
  obtain ⟨-, rfl, -⟩ := step_next_edge hr h
  refine ⟨exStage_valid s, ?_, rfl⟩
  rw [edge_retired, exStage_valid, Bool.toNat, cond_eq_ite]

/-- Settles O19: the edge halts the machine exactly when it drains MEM/WB as well. -/
theorem writePortAndHaltDrain : Obligations.WritePortAndHaltDrain := by
  intro s t hr h
  obtain ⟨-, rfl, -⟩ := step_next_edge hr h
  exact ⟨fun hh => reg_edge_running hh, fun hh => reg_edge_halting hh⟩

/-- Settles O21: the stall leaves a bubble in EX behind the load, so the next cycle has nothing to hold the word for. -/
theorem loadUseStallHoldsFetchAndDecode : Obligations.LoadUseStallHoldsFetchAndDecode := by
  intro s t hr h
  refine ⟨hazardStall_iff s, fun hstall hredirect => ?_⟩
  have hnone := exStage_redirect_of_not_redirectNow hredirect
  obtain ⟨-, rfl, -⟩ := step_next_edge hr h
  have hpc : (s.edge s.exStage).pc = s.pc := by simp [hnone, hstall]
  have hifId : (s.edge s.exStage).ifId = s.ifId := by simp [hnone, hstall]
  have hidEx : (s.edge s.exStage).idEx = IdEx.bubble := by simp [hstall]
  refine ⟨hpc, hifId, hidEx, rfl, rfl, rfl, rfl, fun u hv hh hu => ?_⟩
  rw [step_next_of_bubble (running_of_step_next hr h hh) hidEx hu, edge_idEx, idExNext_of_valid (by rwa [hifId]), hifId]

/-- Settles O22: the redirect leaves bubbles in IF/ID and ID/EX and the target in the PC, from where the next two steps go
on. -/
theorem redirectSquashesTheTwoYounger : Obligations.RedirectSquashesTheTwoYounger := by
  intro s t hr h
  have hiff : s.redirectNow = true ↔ s.idEx.ctl.jump = true ∨ s.branchTaken = true := by
    rw [redirectNow_eq, Bool.or_eq_true]
  refine ⟨by rw [hiff, State.branchTaken, Bool.and_eq_true], fun hredirect => ?_⟩
  have hsome := exStage_redirect_of_redirectNow hredirect
  obtain ⟨-, rfl, -⟩ := step_next_edge hr h
  have hpc : (s.edge s.exStage).pc = s.redirectTarget := by simp [hsome]
  have hifId : (s.edge s.exStage).ifId = IfId.bubble := by simp [hsome]
  have hidEx : (s.edge s.exStage).idEx = IdEx.bubble := by simp [hsome]
  exact ⟨hpc, hifId, hidEx, exStage_valid s, fun u v hh hu hv =>
    two_steps_of_bubbles (running_of_step_next hr h hh) hifId hidEx hu hv⟩

end Sys2Proof.Machine

/-! SUPPORT. The instructions of 44_halt_undefined.md: the cycle of an unimplemented R-type word. -/

namespace Sys2Proof.Machine

open Sys2Proof

/-- With no misaligned access in MEM, a cycle whose EX stage found a fault raises that fault. -/
theorem finishCycle_error {s : State} (h : s.misalignedInMem = false) (f : Fault) :
    s.finishCycle (.error f) = .fault f := by
  simp [State.finishCycle, raise, h]

/-- The cycle of an unimplemented R-type word uses none of its fields but the function code (44_halt_undefined.md R192). -/
theorem exec_unimplementedRType (rs rt rd : Reg) (z : BitVec 5) (funct : BitVec 6) (s : State) :
    exec (.unimplementedRType rs rt rd z funct) s =
      s.finishCycle (.error (.unimplementedFunct (s.idEx.pc4 - 4) funct)) := rfl

/-! ### The statement of 44_halt_undefined.md -/

/-- Settles O36: the EX stage's fault is the word's own, and the MEM stage's, being older, comes before it. -/
theorem unimplementedRTypeFaults : Obligations.UnimplementedRTypeFaults := by
  intro s rs rt rd z funct
  rw [exec_unimplementedRType]
  split
  next hm => exact finishCycle_misaligned hm _
  next hm => exact finishCycle_error (Bool.eq_false_iff.mpr hm) _

end Sys2Proof.Machine

/-! SUPPORT. Model faults (60_exceptions.md): the exact answer of a step that raises, and the machine once a fault is
recorded. -/

namespace Sys2Proof.Machine

open Sys2Proof

/-! ### What a step raises -/

/-- The check of the two lowest address bits is the check for a multiple of 4 (20_memory.md R57). -/
theorem aligned_eq_false_iff (a : Word) : aligned a = false ↔ a.toNat % 4 ≠ 0 := by
  simp [aligned, ← BitVec.toNat_inj]

/-- With no misaligned access in MEM, a valid instruction in EX for which ALU control selects no operation is what the step
raises (60_exceptions.md R206). -/
theorem step_of_no_aluFn {s : State} (hr : s.Running) (hm : s.misalignedInMem = false) (hv : s.idEx.valid = true)
    (hn : aluControl s.idEx.ctl.aluOp s.idEx.funct = none) :
    step s = .fault (.unimplementedFunct (s.idEx.pc4 - 4) s.idEx.funct) := by
  rw [step_running hr, runCycle_exec, State.cycle, if_pos (by simp [hv, hn]), finishCycle_error hm]

/-- A cycle whose EX stage found no fault can raise only the MEM stage's. -/
theorem finishCycle_ok_fault {s : State} {out : ExOut} {f : Fault} (h : s.finishCycle (.ok out) = .fault f) :
    f = .misalignedData s.exMem.aluResult := by
  obtain ⟨-, hf⟩ | ⟨-, herror⟩ := finishCycle_fault h
  · exact hf
  · cases herror

/-- The EX stage of a HLT has no fault to raise (44_halt_undefined.md R190). -/
theorem exec_hlt_fault {z : BitVec 26} {s : State} {f : Fault} (h : exec (.hlt z) s = .fault f) :
    f = .misalignedData s.exMem.aluResult :=
  finishCycle_ok_fault h

/-! ### A machine with a recorded fault -/

/-- A clock edge leaves a machine with a recorded fault as it is (10_state.md R41; notes/assumptions/7.md). -/
theorem clock_of_fault_recorded {s : State} {f : Fault} (h : s.fault = some f) : s.clock = s := by
  cases hh : s.halted with
  | true => exact clock_next (step_halted hh)
  | false =>
    have hstep : step s = .fault f := by simp [step, hh, h]
    rw [clock_fault hstep, ← h]

/-- No number of clock edges changes a machine with a recorded fault. -/
theorem clockTimes_of_fault_recorded {s : State} {f : Fault} (h : s.fault = some f) (n : Nat) : s.clockTimes n = s := by
  induction n with
  | zero => rfl
  | succ n ih => rw [State.clockTimes, clock_of_fault_recorded h, ih]

/-! ### The statements of 60_exceptions.md -/

/-- Settles O23: a step raises only what `step_fault_cases` lists, and each of the two faults, where it applies, is raised. -/
theorem cycleFaultsOldestFirst : Obligations.CycleFaultsOldestFirst := by
  refine ⟨fun s f hr => ⟨fun h => ?_, fun h => ?_⟩, fun s => ?_, fun z s address funct h => ?_⟩
  · obtain hmem | ⟨hm, hv, hn, hf⟩ := step_fault_cases hr h
    · exact .inl hmem
    · obtain ⟨hop, hfunct⟩ := aluControl_eq_none.mp hn
      exact .inr ⟨hm, hv, hop, hfunct, hf⟩
  · obtain ⟨hm, rfl⟩ | ⟨hm, hv, hop, hfunct, rfl⟩ := h
    · exact step_of_misalignedInMem hr hm
    · exact step_of_no_aluFn hr hm hv (aluControl_eq_none.mpr ⟨hop, hfunct⟩)
  · rw [misalignedInMem_iff, aligned_eq_false_iff]
  · cases exec_hlt_fault h

/-- Settles O24: the edge of a raise sets the fault record, and a state whose record is set is a fixed point of the clock. -/
theorem raiseRecordsTheFaultAndStops : Obligations.RaiseRecordsTheFaultAndStops := by
  intro s f _ h
  have hclock : s.clock = { s with fault := some f } := clock_fault h
  exact ⟨hclock, clockTimes_of_fault_recorded (f := f) (by rw [hclock])⟩

end Sys2Proof.Machine

/-! SUPPORT. Reset (70_reset_and_hazards.md): what reads of a loaded machine's registers and stores give. -/

namespace Sys2Proof.Machine

open Sys2Proof Sys2Proof.Config

/-- Reset puts 0 into every register (70_reset_and_hazards.md R230). -/
@[simp] theorem reg_load (image : List Byte) (params : Params) (r : Reg) : (State.load image params).reg r = 0 :=
  Vector.getElem_replicate r.isLt

/-- The instruction store of a loaded machine reads as the image, and as 0 past its end (20_memory.md R66). -/
@[simp] theorem read_imem_load (image : List Byte) (params : Params) (a : Nat) :
    Memory.read (State.load image params).imem a = image.getD a 0 :=
  read_ofImage image a

/-- The data store of a loaded machine reads as 0 everywhere (10_state.md R34). -/
@[simp] theorem read_dmem_load (image : List Byte) (params : Params) (a : Nat) :
    Memory.read (State.load image params).dmem a = 0 :=
  Memory.read_nil a

/-! ### The statement of 70_reset_and_hazards.md on reset -/

/-- Settles O26: the registers and the two stores by their reads; every other element is a field that reset or load sets. -/
theorem resetState : Obligations.ResetState := by
  intro image params
  exact ⟨reg_load image params, rfl, rfl, rfl, rfl, rfl, read_dmem_load image params, rfl, rfl, rfl, rfl,
    read_imem_load image params, rfl⟩

end Sys2Proof.Machine

/-! SUPPORT. Encoding (30_encoding.md): decoding and encoding undo each other, the bytes of an instruction, the targets of the
control transfers and the labels an assembler resolves to them. -/

namespace Sys2Proof

/-! ### Encoding the fields a word was cut into -/

/-- Every bit of a field put back where it was read is the word's own, and the other bits are 0. -/
theorem getLsbD_placed_extract (w : Word) (lo n : Nat) {i : Nat} (hi : i < 32) :
    (placed (w.extractLsb' lo n) lo).getLsbD i = (decide (lo ≤ i ∧ i < lo + n) && w.getLsbD i) := by
  simp only [placed, BitVec.getLsbD_shiftLeft, BitVec.getLsbD_setWidth, BitVec.getLsbD_extractLsb']
  by_cases hlo : lo ≤ i
  · have hin : i - lo < n ↔ i < lo + n := by omega
    simp [hi, hlo, hin, show i - lo < 32 by omega]
  · simp [hi, hlo, show i < lo by omega]

/-- Format R (30_encoding.md R82); the opcode it does not write down is 0. -/
theorem encodeR_fields {w : Word} (h : opcodeField w = 0x00#6) :
    encodeR (rsField w) (rtField w) (rdField w) (shamtField w) (functField w) = w := by
  have hop : placed (opcodeField w) 26 = 0 := by rw [h]; rfl
  calc encodeR (rsField w) (rtField w) (rdField w) (shamtField w) (functField w)
    _ = placed (opcodeField w) 26 ||| encodeR (rsField w) (rtField w) (rdField w) (shamtField w) (functField w) := by
      rw [hop]; exact BitVec.zero_or.symm
    _ = w := by
      apply BitVec.eq_of_getLsbD_eq
      intro i hi
      simp only [encodeR, opcodeField, rsField, rtField, rdField, shamtField, functField, BitVec.getLsbD_or,
        getLsbD_placed_extract w _ _ hi]
      cases w.getLsbD i
      case false => simp
      case true => simp; omega

/-- Format I (30_encoding.md R82). -/
theorem encodeI_fields (w : Word) : encodeI (opcodeField w) (rsField w) (rtField w) (immField w) = w := by
  apply BitVec.eq_of_getLsbD_eq
  intro i hi
  simp only [encodeI, opcodeField, rsField, rtField, immField, BitVec.getLsbD_or, getLsbD_placed_extract w _ _ hi]
  cases w.getLsbD i
  case false => simp
  case true => simp; omega

/-- Formats J and H (30_encoding.md R82). -/
theorem encodeJ_fields (w : Word) : encodeJ (opcodeField w) (targetField w) = w := by
  apply BitVec.eq_of_getLsbD_eq
  intro i hi
  simp only [encodeJ, opcodeField, targetField, BitVec.getLsbD_or, getLsbD_placed_extract w _ _ hi]
  cases w.getLsbD i
  case false => simp
  case true => simp; omega

/-! ### Decoding and encoding undo each other -/

/-- Every word decodes to a well-formed instruction (30_encoding.md R87, R88). -/
theorem decodeWord_wellFormed (w : Word) : (decodeWord w).wellFormed = true := by
  apply decodeWord_cases (P := fun i => i.wellFormed = true)
  case unimplementedRType => exact fun _ hf => by simpa [Instr.wellFormed] using hf
  case unknownOpcode => exact fun h => by simpa [Instr.wellFormed] using h
  all_goals intros; rfl

/-- Encoding a decoded word gives the word back (30_encoding.md R89). -/
theorem encode_decodeWord (w : Word) : encode (decodeWord w) = w := by
  apply decodeWord_cases (P := fun i => encode i = w)
  case add => exact fun h hf => by rw [encode, ← hf, encodeR_fields h]
  case unimplementedRType => exact fun h _ => encodeR_fields h
  case unknownOpcode => exact fun _ => encodeJ_fields w
  case j | hlt => exact fun h => by rw [encode, ← h, encodeJ_fields]
  all_goals exact fun h => by rw [encode, ← h, encodeI_fields]

/-- Decoding an encoded well-formed instruction gives the instruction back (30_encoding.md R86-R88). -/
theorem decodeWord_encode {i : Instr} (h : i.wellFormed = true) : decodeWord (encode i) = i := by
  cases i
  case unimplementedRType rs rt rd z funct =>
    have hfunct : funct ≠ 0x20#6 := by simpa [Instr.wellFormed] using h
    simp [decodeWord, encode, hfunct]
  case unknownOpcode op rest =>
    have hop : op ∉ knownOpcodes := by simpa [Instr.wellFormed] using h
    simp only [knownOpcodes, List.mem_cons, List.not_mem_nil, or_false, not_or] at hop
    simp [decodeWord, encode, hop]
  all_goals simp [decodeWord, encode]

/-! ### The statements on single words -/

/-- Settles O2: the fields of an encoded instruction are its operands, and its opcode field selects its own row. -/
theorem decodeInvertsEncode : Obligations.DecodeInvertsEncode := fun _ => decodeWord_encode

/-- Settles O3: a decoded instruction keeps every field of its word, the ignored ones included. -/
theorem everyWordIsOneInstruction : Obligations.EveryWordIsOneInstruction :=
  fun w => ⟨decodeWord_wellFormed w, encode_decodeWord w⟩

/-- Settles O1: thirteen closed words, evaluated. -/
theorem sampleWordsDecode : Obligations.SampleWordsDecode := by
  unfold Obligations.SampleWordsDecode
  decide

/-- The four bytes of a word in store order decode to it, and the bytes after them are left over (30_encoding.md R80). -/
theorem decode_bytesOfWord (w : Word) (rest : List Byte) : decode (bytesOfWord w ++ rest) = .ok (decodeWord w, rest) := by
  simp [bytesOfWord, decode]

/-- Settles O4: four bytes make a word, and a list of fewer is one of four short lists. -/
theorem instructionsAreFourLittleEndianBytes : Obligations.InstructionsAreFourLittleEndianBytes := by
  refine ⟨decode_bytesOfWord, fun bytes hlen => ?_⟩
  match bytes, hlen with
  | [], _ | [_], _ | [_, _], _ | [_, _, _], _ => rfl

end Sys2Proof

namespace Sys2Proof.Machine

open Sys2Proof

/-! ### The targets of control transfers (30_encoding.md R84, R85) -/

theorem aligned_iff (a : Word) : aligned a = true ↔ a.toNat % 4 = 0 := by
  have h := aligned_eq_false_iff a
  cases ha : aligned a <;> simp_all

/-- Sums of multiples of 4 are multiples of 4, also where they wrap: 4 divides 2^32. -/
theorem aligned_add {a b : Word} (ha : aligned a = true) (hb : aligned b = true) : aligned (a + b) = true := by
  rw [aligned_iff] at *
  rw [BitVec.toNat_add]
  omega

/-- Four times anything is a multiple of 4. -/
theorem aligned_shiftLeft_two (a : Word) : aligned (a <<< 2) = true := by
  rw [aligned_iff, BitVec.toNat_shiftLeft, Nat.shiftLeft_eq]
  omega

theorem aligned_branchTarget {pc4 : Word} (imm : Word) (h : aligned pc4 = true) : aligned (branchTarget pc4 imm) = true :=
  aligned_add h (aligned_shiftLeft_two imm)

theorem aligned_jumpTarget (target : BitVec 26) : aligned (jumpTarget target) = true := aligned_shiftLeft_two _

/-- The jump target is four times the field: 28 bits, nothing lost (30_encoding.md R85). -/
theorem jumpTarget_toNat (target : BitVec 26) : (jumpTarget target).toNat = 4 * target.toNat := by
  have hlt := target.isLt
  rw [jumpTarget, BitVec.toNat_shiftLeft, BitVec.toNat_setWidth, Nat.shiftLeft_eq]
  omega

/-- Settles O10: both targets end in a shift by 2. -/
theorem controlTargetsAreAligned : Obligations.ControlTargetsAreAligned :=
  ⟨fun _ imm h => aligned_branchTarget imm h, fun target => ⟨aligned_jumpTarget target, jumpTarget_toNat target⟩⟩

/-! ### Labels (30_encoding.md R91) -/

/-- A 16-bit offset in range, sign-extended, is the offset as a word. -/
theorem sext_ofInt {n : Int} (hlo : -32768 ≤ n) (hhi : n ≤ 32767) : sext (BitVec.ofInt 16 n) = BitVec.ofInt 32 n := by
  apply BitVec.eq_of_toInt_eq
  rw [sext, BitVec.toInt_signExtend_of_le (by decide), BitVec.toInt_ofInt, BitVec.toInt_ofInt,
    Int.bmod_eq_of_le (by omega) (by omega), Int.bmod_eq_of_le (by omega) (by omega)]

/-- A shift by 2 of a number's word is the word of four times the number. -/
theorem ofInt_shiftLeft_two (n : Int) : BitVec.ofInt 32 n <<< 2 = BitVec.ofInt 32 (4 * n) := by
  rw [BitVec.shiftLeft_eq_mul_twoPow, BitVec.ofInt_mul, mul_comm]
  rfl

/-- A resolved branch offset, in words, is the distance to the label from the address after the branch. -/
theorem labelOffset_eq_some {at' label : Nat} {off : BitVec 16} (h : labelOffset at' label = some off) :
    ∃ n : Int, off = BitVec.ofInt 16 n ∧ -32768 ≤ n ∧ n ≤ 32767 ∧ (label : Int) = (at' : Int) + 4 + 4 * n := by
  simp only [labelOffset] at h
  split at h
  next hd =>
    obtain ⟨hmod, hlo, hhi⟩ := hd
    exact ⟨_, (Option.some.inj h).symm, hlo, hhi, by omega⟩
  next => cases h

theorem labelIndex_eq_some {label : Nat} {index : BitVec 26} (h : labelIndex label = some index) :
    label % 4 = 0 ∧ label < 2 ^ 28 ∧ index = BitVec.ofNat 26 (label / 4) := by
  unfold labelIndex at h
  split at h
  next hl => exact ⟨hl.1, hl.2, (Option.some.inj h).symm⟩
  next => cases h

theorem branchTarget_labelOffset {at' label : Nat} {off : BitVec 16} (h : labelOffset at' label = some off) :
    branchTarget (BitVec.ofNat 32 at' + 4) (sext off) = BitVec.ofNat 32 label := by
  obtain ⟨n, rfl, hlo, hhi, hlabel⟩ := labelOffset_eq_some h
  calc branchTarget (BitVec.ofNat 32 at' + 4) (sext (BitVec.ofInt 16 n))
    _ = BitVec.ofNat 32 at' + 4 + BitVec.ofInt 32 (4 * n) := by
      rw [branchTarget, sext_ofInt hlo hhi, ofInt_shiftLeft_two]
    _ = BitVec.ofInt 32 ((at' : Int) + 4 + 4 * n) := by
      rw [BitVec.ofInt_add, BitVec.ofInt_add, BitVec.ofInt_natCast]; rfl
    _ = BitVec.ofNat 32 label := by rw [← hlabel, BitVec.ofInt_natCast]

theorem jumpTarget_labelIndex {label : Nat} {index : BitVec 26} (h : labelIndex label = some index) :
    jumpTarget index = BitVec.ofNat 32 label := by
  obtain ⟨hmod, hlt, rfl⟩ := labelIndex_eq_some h
  apply BitVec.eq_of_toNat_eq
  rw [jumpTarget_toNat, BitVec.toNat_ofNat, BitVec.toNat_ofNat]
  omega

/-- Settles O55: the distance to a label in reach is a 16-bit number of words, and a word index is the label over four. -/
theorem labelsResolveToTheirAddress : Obligations.LabelsResolveToTheirAddress :=
  ⟨fun _ _ _ => branchTarget_labelOffset, fun _ _ => jumpTarget_labelIndex, fun label => by simp [labelIndex]⟩

end Sys2Proof.Machine

/-! SUPPORT. The invariants of the stores and of the PC (10_state.md R42; 20_memory.md R53, R60): the canonical form of both
stores, accesses at the top of the address space, and alignment. -/

namespace Sys2Proof.Machine

open Sys2Proof Sys2Proof.Config

/-! ### Both stores stay canonical -/

theorem memoryCanonical_load (image : List Byte) (params : Params) : (State.load image params).MemoryCanonical :=
  ⟨ofImage_wf image, rfl, ofImage_within image, rfl⟩

theorem dmemNext_wf {s : State} (h : Memory.wf s.dmem = true) : Memory.wf s.dmemNext = true := by
  cases hw : s.exMem.memWrite
  case false => rwa [dmemNext_of_not_memWrite hw]
  case true => rw [dmemNext_of_memWrite hw]; exact writeWord_wf h _ _

theorem dmemNext_within {s : State} (h : Memory.within s.memSize s.dmem = true) :
    Memory.within s.memSize s.dmemNext = true := by
  cases hw : s.exMem.memWrite
  case false => rwa [dmemNext_of_not_memWrite hw]
  case true => rw [dmemNext_of_memWrite hw]; exact writeWord_within h _ _

/-- A property that every edge keeps is kept by every step: a halted machine stays as it is. -/
theorem step_keeps {P : State → Prop} {s t : State} (edge_keeps : s.Running → P s → P (s.edge s.exStage))
    (hs : P s) (h : step s = .next t) : P t := by
  obtain ⟨-, rfl⟩ | ⟨hr, -⟩ := step_next_cases h
  · exact hs
  · obtain ⟨-, rfl, -⟩ := step_next_edge hr h
    exact edge_keeps hr hs

/-- Settles O27: a loaded image lists its bytes in order below its length, and the data store lists none. -/
theorem resetMemoryCanonical : Obligations.ResetMemoryCanonical := ⟨memoryCanonical_load [] .default, memoryCanonical_load⟩

/-- Settles O28: an edge writes no store but the data store, and that only through `writeWord`. -/
theorem stepKeepsMemoryCanonical : Obligations.StepKeepsMemoryCanonical := by
  intro s t
  refine step_keeps (P := State.MemoryCanonical) fun _ hcanon => ?_
  obtain ⟨hiwf, hdwf, hiwithin, hdwithin⟩ := hcanon
  exact ⟨hiwf, dmemNext_wf hdwf, hiwithin, dmemNext_within hdwithin⟩

/-! ### The top of the address space (20_memory.md R67) -/

/-- Whatever the policy, a byte a word write changes is one of the four from its address on. -/
theorem read_writeWord_of_outside {policy : OobWritePolicy} {size : Nat} {m : Memory} (h : Memory.wf m = true) {a : Word}
    (v : Word) {b : Nat} (hb : b < a.toNat ∨ a.toNat + 4 ≤ b) :
    Memory.read (writeWord policy size m a v) b = Memory.read m b := by
  cases policy
  case wholeWord => rw [read_writeWord_wholeWord h, if_neg (by omega)]
  case perByte => exact (read_writeBytes h a v b).trans (if_neg (by omega))

/-- Settles O13: byte indices are natural numbers, so one past 2^32 is past the end of the store and not at its bottom. -/
theorem accessesDoNotWrapAtTheTop : Obligations.AccessesDoNotWrapAtTheTop := by
  intro policy size m a v k hsize hwf hk htop
  refine ⟨?_, fun b hb => read_writeWord_of_outside hwf v (.inl hb)⟩
  rw [byteOfWord_readWord size m a hk, byteAt, if_neg (by omega)]
  rfl

/-! ### The PC stays a multiple of 4 (10_state.md R42) -/

theorem pcAligned_load (image : List Byte) (params : Params) : (State.load image params).PcAligned :=
  ⟨rfl, rfl, rfl⟩

/-- The target of a redirect is a multiple of 4 if the PC+4 in ID/EX is. -/
theorem aligned_redirectTarget {s : State} (h : aligned s.idEx.pc4 = true) : aligned s.redirectTarget = true := by
  unfold State.redirectTarget
  split
  next => exact aligned_jumpTarget _
  next => exact aligned_branchTarget _ h

theorem aligned_add_four {a : Word} (h : aligned a = true) : aligned (a + 4) = true := aligned_add h rfl

/-- What an edge fetches, holds or redirects to is aligned again. -/
theorem edge_pcAligned {s : State} (h : s.PcAligned) : (s.edge s.exStage).PcAligned := by
  obtain ⟨hpc, hifId, hidEx⟩ := h
  refine ⟨?_, ?_, ?_⟩
  · rw [edge_pc, exStage_stall, pcNext_exStage]
    split
    next => exact aligned_redirectTarget hidEx
    next =>
      split
      next => exact hpc
      next => exact aligned_add_four hpc
  · rw [edge_ifId, State.ifIdNext]
    split
    next => rfl
    next =>
      split
      next => exact hifId
      next => exact aligned_add_four hpc
  · rw [edge_idEx, State.idExNext]
    split
    next => rfl
    next => exact hifId

/-- Settles O29: the PC and the two latches start at 0, and every way an edge fills them keeps multiples of 4. -/
theorem pcStaysAligned : Obligations.PcStaysAligned :=
  ⟨pcAligned_load [] .default, pcAligned_load, fun _ _ => step_keeps fun _ => edge_pcAligned⟩

end Sys2Proof.Machine

/-! SUPPORT. The meaning of an instruction as the clock cycle with it in EX (40_pipeline.md R143): what every instruction's cycle
hands to the edge, and the first cycles of a word. -/

namespace Sys2Proof.Machine

open Sys2Proof Sys2Proof.Config Sys2Proof.Laws.Latched

/-! ### The step is the cycle of the instruction in EX -/

/-- A running step is the clock cycle read off the latches. -/
theorem step_eq_cycle {s : State} (hr : s.Running) : step s = s.cycle := by
  rw [step_running hr, runCycle_exec]

/-- A latch in which ID latched a word holds the instruction the word decodes to. -/
theorem State.InEx.holds {s : State} {w : Word} (h : s.InEx w) : s.idEx.Holds (decodeWord w) := by
  have held := ofWord_holds_decodeWord w s.idEx.pc4 s.idEx.rd1 s.idEx.rd2
  rwa [← h] at held

theorem step_eq_exec {s : State} {w : Word} (hr : s.Running) (h : s.InEx w) : step s = exec (decodeWord w) s :=
  (step_eq_cycle hr).trans (exec_eq_cycle h.holds).symm

/-- Settles O46: each instruction's meaning is the cycle read off the latch that holds it (`exec_eq_cycle`), and a latch that
holds none runs the raw cycle. -/
theorem stepIsTheCycleOfTheLatches : Obligations.StepIsTheCycleOfTheLatches := fun _ => step_eq_cycle

/-- Settles O47: the latch holds the word's instruction, whose meaning is that cycle. -/
theorem stepRunsTheWordInEx : Obligations.StepRunsTheWordInEx := fun _ _ => step_eq_exec

/-! ### What an instruction's cycle hands to the edge -/

/-- Every instruction but the unimplemented R-type word hands the edge a valid instruction that writes its own destination
register, if it has one (10_state.md R23; 40_pipeline.md R113). -/
theorem exec_eq_finishCycle_ok {i : Instr} (hi : ∀ rs rt rd z funct, i ≠ .unimplementedRType rs rt rd z funct) (s : State) :
    ∃ out : ExOut, exec i s = s.finishCycle (.ok out) ∧ out.exMem.valid = true ∧
      (out.exMem.regWrite = true ↔ (destinationReg i).isSome = true) ∧
      ∀ r : Reg, destinationReg i = some r → out.exMem.writeReg = r := by
  cases i with
  | add | addi | lw => exact ⟨_, rfl, rfl, iff_of_true rfl rfl, fun _ h => Option.some.inj h⟩
  | beq | j | sw | hlt | unknownOpcode => exact ⟨_, rfl, rfl, iff_of_false nofun nofun, nofun⟩
  | unimplementedRType rs rt rd z funct => exact absurd rfl (hi rs rt rd z funct)

/-- The edge of a valid instruction retires it and counts a cycle, and leaves all that no edge changes (40_pipeline.md R138,
R139). -/
theorem retiresInto_edge {s : State} {out : ExOut} (hv : out.exMem.valid = true) : s.RetiresInto (s.edge out) :=
  ⟨rfl, rfl, rfl, rfl, by simp [hv], rfl⟩

/-- An unimplemented R-type word has no next state (44_halt_undefined.md R192). -/
theorem exec_next_ne_unimplementedRType {i : Instr} {s t : State} (h : exec i s = .next t) (rs rt rd : Reg)
    (z : BitVec 5) (funct : BitVec 6) : i ≠ .unimplementedRType rs rt rd z funct := by
  rintro rfl
  rw [exec_unimplementedRType] at h
  obtain ⟨-, out, herror, -⟩ := finishCycle_next h
  cases herror

/-- Settles O35: with nothing to raise in MEM, the cycle of `exec_eq_finishCycle_ok` takes the edge. -/
theorem everyInstructionCompletes : Obligations.EveryInstructionCompletes := by
  intro i s hm hi
  obtain ⟨out, hexec, hvalid, -⟩ := exec_eq_finishCycle_ok hi s
  exact ⟨s.edge out, by rw [hexec, finishCycle_ok hm], retiresInto_edge hvalid, hvalid, rfl, rfl, rfl⟩

/-- Settles O45: EX/MEM after the edge is what the instruction handed to it. -/
theorem onlyAddAddiLwWriteRegisters : Obligations.OnlyAddAddiLwWriteRegisters := by
  intro i s t h
  obtain ⟨out, hexec, -, hdest⟩ := exec_eq_finishCycle_ok (exec_next_ne_unimplementedRType h) s
  rw [hexec] at h
  obtain ⟨-, out', hout, rfl⟩ := finishCycle_next h
  cases hout
  exact hdest

/-! ### The first cycles of a word -/

/-- With a bubble in EX and nothing to raise in MEM, a running step takes the edge that hands on a bubble. -/
theorem step_of_bubble {s : State} (hr : s.Running) (hb : s.idEx = IdEx.bubble) (hm : s.misalignedInMem = false) :
    step s = .next (s.edge { exMem := ExMem.bubble }) := by
  rw [step_eq_next_edge hr hm (by simp [hb]), exStage_of_bubble hb]

/-- A bubble in MEM accesses nothing. -/
theorem misalignedInMem_of_bubble {s : State} (h : s.exMem = ExMem.bubble) : s.misalignedInMem = false := by
  simp [State.misalignedInMem, h]

/-- The state two edges after one with no instruction in IF/ID or ID/EX: the word at the PC is in EX, behind two bubbles. -/
def State.afterFetchAndDecode (s : State) : State :=
  (s.edge { exMem := ExMem.bubble }).edge { exMem := ExMem.bubble }

theorem idEx_afterFetchAndDecode (s : State) :
    s.afterFetchAndDecode.idEx = IdEx.ofWord (s.fetchWord s.pc) (s.pc + 4) s.afterFetchAndDecode.idEx.rd1
      s.afterFetchAndDecode.idEx.rd2 := rfl

theorem two_steps_of_empty {s : State} (hr : s.Running) (hifId : s.ifId = IfId.bubble) (hidEx : s.idEx = IdEx.bubble)
    (hm : s.misalignedInMem = false) :
    step s = .next (s.edge { exMem := ExMem.bubble }) ∧
      step (s.edge { exMem := ExMem.bubble }) = .next s.afterFetchAndDecode ∧ s.afterFetchAndDecode.Running := by
  have hr' : (s.edge { exMem := ExMem.bubble }).Running := ⟨rfl, hr.2⟩
  have hidEx' : (s.edge { exMem := ExMem.bubble }).idEx = IdEx.bubble := by simp [idExNext_advance, hifId]
  exact ⟨step_of_bubble hr hidEx hm, step_of_bubble hr' hidEx' (misalignedInMem_of_bubble rfl), rfl, hr.2⟩

/-- Settles O48: an edge fetches the word and the next one decodes it, both with a bubble in EX. -/
theorem fetchedWordRunsInTheThirdCycle : Obligations.FetchedWordRunsInTheThirdCycle := by
  intro s hr hifId hidEx hm
  obtain ⟨hstep, hstep', hr'⟩ := two_steps_of_empty hr hifId hidEx hm
  have hin : s.afterFetchAndDecode.InEx (s.fetchWord s.pc) := idEx_afterFetchAndDecode s
  exact ⟨_, _, hstep, hstep', hr', hin, rfl, step_eq_exec hr' hin⟩

/-- Settles O53: the reset machine is empty, so the first two edges hand on bubbles and the third the first word. -/
theorem firstInstructionRetiresAtEdgeThree : Obligations.FirstInstructionRetiresAtEdgeThree := by
  intro image params s
  obtain ⟨hstep, hstep', hr'⟩ := two_steps_of_empty (s := s) ⟨rfl, rfl⟩ rfl rfl (misalignedInMem_of_bubble rfl)
  refine ⟨_, _, hstep, hstep', rfl, rfl, rfl, rfl, rfl, idEx_afterFetchAndDecode s, rfl, fun v hv => ?_⟩
  obtain ⟨hvalid, hretired, hcycles⟩ := countersAdvance _ _ hr' hv
  exact ⟨hvalid, hretired, hcycles⟩

/-! ### A word placed in the reset machine (notes/assumptions/3.md) -/

/-- The word read where the host stored it, in a store that reaches far enough. -/
theorem readWord_storeWord {size : Nat} {m : Memory} (h : Memory.wf m = true) {a : Word} (v : Word)
    (ha : a.toNat + 4 ≤ size) : readWord size (storeWord m a.toNat v) a = v := by
  have hstore : storeWord m a.toNat v = writeBytes size m a v := by
    simp only [storeWord, writeBytes, writeByteInBounds]
    rw [if_pos (by omega), if_pos (by omega), if_pos (by omega), if_pos (by omega)]
  rw [hstore, ← writeWord_of_le (policy := .wholeWord) m v ha, readWord_writeWord h v ha]

theorem placeWord_inEx (s : State) (w : Word) : (s.placeWord w).InEx w := rfl

/-- Settles O49: the placed word is in EX, and the bytes of the store it lies in put it together again. -/
theorem placedWordRunsNext : Obligations.PlacedWordRunsNext := by
  intro w hw
  have hword : State.reset.withFetchWord 32 w = State.reset.placeWord (BitVec.ofNat 32 w) := by
    rw [State.withFetchWord, Nat.mod_eq_of_lt hw]
  rw [hword]
  refine ⟨step_eq_exec ⟨rfl, rfl⟩ (placeWord_inEx _ _), ?_, readWord_storeWord (a := 0) rfl _ (le_max_right 0 4)⟩
  have hdecode := decode_bytesOfWord (BitVec.ofNat 32 w) []
  rw [List.append_nil] at hdecode
  rw [decodeTableWord, Nat.mod_eq_of_lt hw, hdecode]

/-! ### The host's loop (60_exceptions.md R219) -/

/-- How the loop can end from `s`, with at most `m` edges. -/
def EndsWithin (m : Nat) (s : State) : Prop :=
  (∃ n t, n ≤ m ∧ t = s.clockTimes n ∧ t.halted = true ∧ hostRun m s = .halted t) ∨
  (∃ n t f, n ≤ m ∧ t = s.clockTimes n ∧ t.halted = false ∧ t.fault = some f ∧ hostRun m s = .modelFault f t) ∨
  (∃ t, t = s.clockTimes m ∧ t.Running ∧ hostRun m s = .nonTerminating t)

/-- A machine that takes no step ends the loop at once, whatever the bound. -/
theorem endsWithin_of_not_running {s : State} (m : Nat) (h : ¬s.Running) : EndsWithin m s := by
  cases hh : s.halted with
  | true => exact .inl ⟨0, s, Nat.zero_le m, rfl, hh, by cases m <;> simp [hostRun, hh]⟩
  | false =>
    cases hf : s.fault with
    | none => exact absurd ⟨hh, hf⟩ h
    | some f => exact .inr (.inl ⟨0, s, f, Nat.zero_le m, rfl, hh, hf, by cases m <;> simp [hostRun, hh, hf]⟩)

/-- A running machine spends one edge and goes on with one less. -/
theorem endsWithin_succ {s : State} {m : Nat} (hr : s.Running) (h : EndsWithin m s.clock) : EndsWithin (m + 1) s := by
  have hrun : hostRun (m + 1) s = hostRun m s.clock := by simp [hostRun, hr.1, hr.2]
  rw [EndsWithin, hrun]
  obtain ⟨n, t, hn, ht⟩ | ⟨n, t, f, hn, ht⟩ | ht := h
  · exact .inl ⟨n + 1, t, by omega, ht⟩
  · exact .inr (.inl ⟨n + 1, t, f, by omega, ht⟩)
  · exact .inr (.inr ht)

theorem endsWithin (m : Nat) (s : State) : EndsWithin m s := by
  induction m generalizing s with
  | zero =>
    by_cases hr : s.Running
    · exact .inr (.inr ⟨s, rfl, hr, by simp [hostRun, hr.1, hr.2]⟩)
    · exact endsWithin_of_not_running 0 hr
  | succ m ih =>
    by_cases hr : s.Running
    · exact endsWithin_succ hr (ih s.clock)
    · exact endsWithin_of_not_running (m + 1) hr

/-- Settles O54: by induction on the bound, each turn of the loop looking for the halt and the fault first. -/
theorem hostRunEnds : Obligations.HostRunEnds := endsWithin

end Sys2Proof.Machine

/-! SUPPORT. The latches stand together (40_pipeline.md sections 5 to 12): the control lines a latch can hold, the invariant
`State.Coherent` along every step, and what it says of hazards and operands. -/

namespace Sys2Proof.Machine

open Sys2Proof Sys2Proof.Config Sys2Proof.Laws.Latched

/-! ### The control lines a word can have (40_pipeline.md R113) -/

/-- What the pipeline relies on of the rows of the control table: a load reads memory, writes `rt` and does nothing else, and
an instruction that halts the machine writes nothing and goes nowhere. -/
structure ControlWord.OfTable (c : ControlWord) : Prop where
  memRead : c.memRead = c.memToReg
  load : c.memRead = true → c.regWrite = true ∧ c.regDst = false ∧ c.memWrite = false ∧ c.jump = false ∧ c.branch = false ∧
    c.terminate = false
  halt : c.terminate = true → c.regWrite = false ∧ c.memWrite = false ∧ c.memRead = false ∧ c.jump = false ∧ c.branch = false

theorem controlOf_ofTable (i : Instr) : (controlOf i).OfTable := by
  cases i <;> constructor <;> simp [controlOf]

/-- A bubble's lines, all 0, are those of a word with an unknown opcode. -/
theorem bubble_ofTable : ({} : ControlWord).OfTable := controlOf_ofTable (.unknownOpcode 0x01 0)

/-- Without a jump or a branch in EX nothing redirects. -/
theorem redirectNow_eq_false {s : State} (hjump : s.idEx.ctl.jump = false) (hbranch : s.idEx.ctl.branch = false) :
    s.redirectNow = false := by
  simp [redirectNow_eq, State.branchTaken, hjump, hbranch]

/-- A stall needs a load in EX. -/
theorem memRead_of_hazardStall {s : State} (h : s.hazardStall = true) : s.idEx.ctl.memRead = true :=
  ((hazardStall_iff s).mp h).1

section Coherent
variable {s : State}

theorem State.Coherent.holds (h : s.Coherent) (hv : s.idEx.valid = true) :
    s.idEx.Holds (decodeWord (s.fetchWord (s.idEx.pc4 - 4))) := (h.decoded hv).holds

theorem State.Coherent.ofTable (h : s.Coherent) : s.idEx.ctl.OfTable := by
  cases hv : s.idEx.valid with
  | false => rw [h.idExBubble hv]; exact bubble_ofTable
  | true => rw [(h.holds hv).ctl]; exact controlOf_ofTable _

/-- A bubble in EX reads no memory, so a cycle that stalls has a valid instruction in EX. -/
theorem State.Coherent.valid_of_memRead (h : s.Coherent) (hread : s.idEx.ctl.memRead = true) : s.idEx.valid = true := by
  cases hv : s.idEx.valid with
  | true => rfl
  | false => rw [h.idExBubble hv] at hread; cases hread

/-- A load neither jumps nor branches (40_pipeline.md R152). -/
theorem State.Coherent.not_redirectNow (h : s.Coherent) (hread : s.idEx.ctl.memRead = true) : s.redirectNow = false := by
  obtain ⟨-, -, -, hjump, hbranch, -⟩ := h.ofTable.load hread
  exact redirectNow_eq_false hjump hbranch

end Coherent

/-! ### What EX/MEM takes from ID/EX -/

/-- EX/MEM's lines are those of a valid instruction in EX, and its destination is the field `reg_dst` selects. -/
theorem exStage_exMem_of_valid {s : State} (hv : s.idEx.valid = true) :
    s.exStage.exMem =
      { valid := true, memToReg := s.idEx.ctl.memToReg, memRead := s.idEx.ctl.memRead, memWrite := s.idEx.ctl.memWrite,
        regWrite := s.idEx.ctl.regWrite, terminate := s.idEx.ctl.terminate,
        aluResult := alu (aluControl s.idEx.ctl.aluOp s.idEx.funct) (s.opA s.idEx.rs)
          (if s.idEx.ctl.aluSrc then s.idEx.imm else s.opB s.idEx.rt),
        storeData := s.opB s.idEx.rt, writeReg := if s.idEx.ctl.regDst then s.idEx.rd else s.idEx.rt } := by
  simp [State.exStage, hv]

theorem exStage_exMem_of_not_valid {s : State} (hv : s.idEx.valid = false) : s.exStage.exMem = ExMem.bubble := by
  simp [State.exStage, hv]

/-! ### The invariant along an edge -/

/-- An instruction goes from ID to EX only with neither a redirect nor a stall, and the fetch then goes on. -/
theorem edge_of_idEx_valid {s : State} {ex : ExOut} (hv : (s.edge ex).idEx.valid = true) :
    s.ifId.valid = true ∧ ex.redirect = none ∧ ex.stall = false ∧
      (s.edge ex).idEx = IdEx.ofWord s.ifId.instr s.ifId.pc4 (s.rfRead (rsField s.ifId.instr))
        (s.rfRead (rtField s.ifId.instr)) := by
  rw [edge_idEx, State.idExNext] at hv
  split at hv
  next => cases hv
  next hgo =>
    simp only [Bool.or_eq_true, Bool.not_eq_true', not_or, Bool.not_eq_true, Bool.not_eq_false,
      Option.isSome_eq_false_iff, Option.isNone_iff_eq_none] at hgo
    obtain ⟨⟨hredirect, hstall⟩, hifId⟩ := hgo
    exact ⟨hifId, hredirect, hstall, by rw [edge_idEx, hredirect, hstall, idExNext_of_valid hifId]⟩

/-- What IF/ID and the PC hold after an edge: nothing behind a redirect, the same after a stall, else the next word. -/
theorem edge_ifId_cases (s : State) (ex : ExOut) :
    (∃ target, ex.redirect = some target ∧ (s.edge ex).ifId = IfId.bubble ∧ (s.edge ex).pc = target) ∨
    (ex.redirect = none ∧ ex.stall = true ∧ (s.edge ex).ifId = s.ifId ∧ (s.edge ex).pc = s.pc) ∨
    (ex.redirect = none ∧ ex.stall = false ∧ (s.edge ex).ifId = ⟨true, s.fetchWord s.pc, s.pc + 4⟩ ∧
      (s.edge ex).pc = s.pc + 4) := by
  cases hredirect : ex.redirect with
  | some target => exact .inl ⟨target, rfl, by simp [hredirect]⟩
  | none =>
    cases hstall : ex.stall with
    | true => exact .inr (.inl (by simp [hredirect, hstall]))
    | false => exact .inr (.inr (by simp [hredirect, hstall]))

/-- The instruction in EX does not name the destination of a load that has just left EX: the hazard unit would have held it. -/
theorem edge_loadUse {s : State} (h : s.Coherent) (hload : (s.edge s.exStage).exMem.memToReg = true)
    (hv : (s.edge s.exStage).idEx.valid = true) :
    (s.edge s.exStage).exMem.writeReg ≠ (s.edge s.exStage).idEx.rs ∧
      (s.edge s.exStage).exMem.writeReg ≠ (s.edge s.exStage).idEx.rt := by
  obtain ⟨-, -, hstall, hidEx⟩ := edge_of_idEx_valid hv
  rw [hidEx]
  rw [edge_exMem] at hload ⊢
  cases hex : s.idEx.valid with
  | false => rw [exStage_exMem_of_not_valid hex] at hload; cases hload
  | true =>
    rw [exStage_exMem_of_valid hex] at hload ⊢
    have hread : s.idEx.ctl.memRead = true := h.ofTable.memRead.trans hload
    obtain ⟨-, hregDst, -⟩ := h.ofTable.load hread
    have hnamed : ¬(s.idEx.rt = rsField s.ifId.instr ∨ s.idEx.rt = rtField s.ifId.instr) := fun hnamed =>
      Bool.eq_false_iff.mp hstall ((hazardStall_iff s).mpr ⟨hread, hnamed⟩)
    simpa [hregDst, not_or] using hnamed

/-- An edge leaves the latches of a running machine standing together. -/
theorem edge_coherent {s : State} (h : s.Coherent) : (s.edge s.exStage).Coherent where
  ifIdBubble hv := by
    obtain ⟨_, -, hifId, -⟩ | ⟨-, -, hifId, -⟩ | ⟨-, -, hifId, -⟩ := edge_ifId_cases s s.exStage <;> rw [hifId] at hv ⊢
    · exact h.ifIdBubble hv
    · cases hv
  idExBubble hv := by
    rw [edge_idEx, exStage_stall, idExNext_exStage] at hv ⊢
    split at hv
    next hbubble => exact if_pos hbubble
    next => cases hv
  exMemBubble hv := by
    rw [edge_exMem, exStage_valid] at hv
    exact exStage_exMem_of_not_valid hv
  memWbBubble hv := by
    cases hm : s.exMem.valid with
    | false => simp [State.memStage, hm]
    | true => simp [State.memStage, hm] at hv
  fetched hv := by
    obtain ⟨_, -, hifId, -⟩ | ⟨-, -, hifId, -⟩ | ⟨-, -, hifId, -⟩ := edge_ifId_cases s s.exStage <;> rw [hifId] at hv ⊢
    · cases hv
    · exact h.fetched hv
    · simp
  decoded hv := by
    obtain ⟨hifId, -, -, hidEx⟩ := edge_of_idEx_valid hv
    rw [State.InEx, hidEx, edge_fetchWord, ofWord_pc4, ← h.fetched hifId]
    rfl
  reads hrun hv := by
    obtain ⟨-, -, -, hidEx⟩ := edge_of_idEx_valid hv
    rw [hidEx]
    exact ⟨(rfRead_eq s _).trans (reg_edge_running hrun _).symm, (rfRead_eq s _).trans (reg_edge_running hrun _).symm⟩
  inOrder hv := by
    obtain ⟨hifId, hredirect, hstall, hidEx⟩ := edge_of_idEx_valid hv
    rw [hidEx, edge_ifId, hredirect, hstall]
    exact ⟨rfl, by simp [h.pcNext hifId]⟩
  pcNext hv := by
    obtain ⟨_, -, hifId, hpc⟩ | ⟨-, -, hifId, hpc⟩ | ⟨-, -, hifId, hpc⟩ := edge_ifId_cases s s.exStage <;>
      rw [hifId] at hv ⊢ <;> rw [hpc]
    · cases hv
    · exact h.pcNext hv
  loadUse := edge_loadUse h
  memLines := by
    rw [edge_exMem]
    cases hv : s.idEx.valid with
    | false => rw [exStage_exMem_of_not_valid hv]; simp
    | true =>
      rw [exStage_exMem_of_valid hv]
      obtain ⟨hread, hload, -⟩ := h.ofTable
      refine ⟨hread, fun hl => ?_, fun hl => ?_⟩
      · obtain ⟨hregWrite, -⟩ := hload (hread.trans hl)
        exact hregWrite
      · obtain ⟨-, -, hmemWrite, -⟩ := hload hl
        exact hmemWrite
  haltInMem := rfl
  haltQuiet hterm := by
    rw [edge_exMem] at hterm ⊢
    obtain ⟨hv, hctl⟩ := (exStage_terminate s).mp hterm
    rw [exStage_exMem_of_valid hv]
    obtain ⟨hreg, hwrite, hread, -⟩ := h.ofTable.halt hctl
    exact ⟨hreg, hwrite, hread⟩

/-- Every latch starts as a bubble. -/
theorem coherent_load (image : List Byte) (params : Params) : (State.load image params).Coherent := by
  constructor <;> simp [State.load, State.reset]

theorem step_keeps_coherent {s t : State} (h : s.Coherent) (hstep : step s = .next t) : t.Coherent :=
  step_keeps (fun _ => edge_coherent) h hstep

/-- Settles O30: with a bubble in every latch each clause holds at once. -/
theorem coherentAfterLoad : Obligations.CoherentAfterLoad := ⟨coherent_load [] .default, coherent_load⟩

/-- Settles O31: clause by clause over the edge (`edge_coherent`). -/
theorem stepKeepsCoherent : Obligations.StepKeepsCoherent := fun _ _ => step_keeps_coherent

/-! ### Stalls and redirects (40_pipeline.md R151, R152) -/

/-- A load in MEM is not what the forwarding unit selects for the instruction in EX (40_pipeline.md R151). -/
theorem State.Coherent.not_forwarded_load {s : State} (h : s.Coherent) (hv : s.idEx.valid = true)
    (hload : s.exMem.memToReg = true) : s.forwardSel s.idEx.rs ≠ 2 ∧ s.forwardSel s.idEx.rt ≠ 2 := by
  obtain ⟨hrs, hrt⟩ := h.loadUse hload hv
  exact ⟨fun h2 => hrs ((forwardSel_eq_two s _).mp h2).2.2, fun h2 => hrt ((forwardSel_eq_two s _).mp h2).2.2⟩

/-- A bubble in EX does nothing to the fetch: it neither stalls nor redirects. -/
theorem quiet_of_bubble {s : State} (h : s.idEx = IdEx.bubble) : s.hazardStall = false ∧ s.redirectNow = false := by
  simp [State.hazardStall, State.redirectNow, exStage_of_bubble h, h]

/-- The instruction in EX does not halt the machine if it loads or redirects. -/
theorem State.Coherent.edge_running {s : State} (h : s.Coherent) (hr : s.Running)
    (hctl : s.idEx.ctl.memRead = true ∨ s.redirectNow = true) : (s.edge s.exStage).Running := by
  refine ⟨Bool.eq_false_iff.mpr fun hhalt => ?_, hr.2⟩
  obtain ⟨-, hterm⟩ := (exStage_terminate s).mp hhalt
  obtain ⟨-, -, hread, hjump, hbranch⟩ := h.ofTable.halt hterm
  simp [hread, redirectNow_eq_false hjump hbranch] at hctl

/-- Settles O33: a stall wants a load in EX and a redirect a jump or branch; the redirect's two bubbles then pass EX. -/
theorem noStallWithRedirect : Obligations.NoStallWithRedirect := by
  refine ⟨fun s h ⟨hstall, hredirect⟩ => ?_, fun s t u h hr hredirect ht hu => ?_⟩
  · exact Bool.eq_false_iff.mp (h.not_redirectNow (memRead_of_hazardStall hstall)) hredirect
  · obtain ⟨-, rfl, -⟩ := step_next_edge hr ht
    have hsome := exStage_redirect_of_redirectNow hredirect
    have hidEx : (s.edge s.exStage).idEx = IdEx.bubble := by simp [hsome]
    have hifId : (s.edge s.exStage).ifId = IfId.bubble := by simp [hsome]
    obtain rfl := step_next_of_bubble (h.edge_running hr (.inr hredirect)) hidEx hu
    have hidEx' : ((s.edge s.exStage).edge { exMem := ExMem.bubble }).idEx = IdEx.bubble := by
      rw [edge_idEx, idExNext_advance, hifId]; rfl
    obtain ⟨hstall, hno⟩ := quiet_of_bubble hidEx
    obtain ⟨hstall', hno'⟩ := quiet_of_bubble hidEx'
    exact ⟨hidEx, hidEx', hstall, hno, hstall', hno'⟩

/-- Operand B by its selection (40_pipeline.md R126, R127). -/
theorem opB_eq (s : State) (src : Reg) :
    s.opB src = if s.forwardSel src = 2 then s.exMem.aluResult
      else if s.forwardSel src = 1 then s.memWb.value else s.idEx.rd2 := by
  unfold State.opB
  rcases forwardSel_cases s src with h | h | h <;> rw [h] <;> rfl

/-- With a bubble in MEM, the forwarding unit takes what MEM/WB writes, other than register 0. -/
theorem forwardSel_memWb {s : State} (hm : s.exMem = ExMem.bubble) (hw : s.memWb.regWrite = true)
    (hne : s.memWb.writeReg ≠ 0) : s.forwardSel s.memWb.writeReg = 1 :=
  (forwardSel_eq_one s _).mpr ⟨hw, hne, rfl, by simp [hm]⟩

/-- A load that has left EX leaves MEM with its destination and the word it read to write (40_pipeline.md R135). -/
theorem State.Coherent.memStage_of_load {s : State} (h : s.Coherent) (hread : s.idEx.ctl.memRead = true) :
    (s.edge s.exStage).memStage.memToReg = true ∧ (s.edge s.exStage).memStage.regWrite = true ∧
      (s.edge s.exStage).memStage.writeReg = s.idEx.rt := by
  obtain ⟨hregWrite, hregDst, -⟩ := h.ofTable.load hread
  have hload := h.ofTable.memRead.symm.trans hread
  simp [State.memStage, exStage_exMem_of_valid (h.valid_of_memRead hread), hregWrite, hregDst, hload]

/-- Settles O34: the hazard unit holds the consumer for the one cycle the load is in MEM, so that it reaches EX with the load
in WB and a bubble between them. -/
theorem loadedWordReachesItsConsumer : Obligations.LoadedWordReachesItsConsumer := by
  refine ⟨fun s h hv hload => h.not_forwarded_load hv hload, fun s t u h hr hstallNow ht hu => ?_⟩
  obtain ⟨hstall, hredirect⟩ : s.hazardStall = true ∧ s.redirectNow = false := by
    simpa [State.stallNow] using hstallNow
  have hread := memRead_of_hazardStall hstall
  obtain ⟨hconsumer, -⟩ := h.inOrder (h.valid_of_memRead hread)
  have hnone := exStage_redirect_of_not_redirectNow hredirect
  obtain ⟨-, rfl, -⟩ := step_next_edge hr ht
  have hidEx : (s.edge s.exStage).idEx = IdEx.bubble := by simp [hstall]
  have hifId : (s.edge s.exStage).ifId = s.ifId := by simp [hnone, hstall]
  obtain rfl := step_next_of_bubble (h.edge_running hr (.inl hread)) hidEx hu
  obtain ⟨hmemToReg, hregWrite, hwriteReg⟩ := h.memStage_of_load hread
  rw [edge_idEx, edge_memWb, idExNext_of_valid (hifId ▸ hconsumer), hifId]
  refine ⟨(quiet_of_bubble hidEx).1, rfl, rfl, hmemToReg, hwriteReg, fun hne => ?_, fun hzero => ?_⟩
  · have hsel := forwardSel_memWb (s := (s.edge s.exStage).edge { exMem := ExMem.bubble }) rfl hregWrite
      (hwriteReg ▸ hne)
    rw [edge_memWb, hwriteReg] at hsel
    rw [opA_eq, opB_eq, hsel, edge_memWb, MemWb.value, hmemToReg]
    exact ⟨rfl, rfl, rfl⟩
  · rw [hzero, forwardSel_zero]

/-! ### Operands (40_pipeline.md R150; 70_reset_and_hazards.md section 2) -/

/-- A register of the architectural state: the write of the instruction in MEM comes after that of the one in WB. -/
theorem arch_reg (s : State) (r : Reg) :
    s.arch.reg r = if s.exMem.regWrite = true ∧ s.exMem.writeReg = r then s.exMemValue
      else if s.memWb.regWrite = true ∧ s.memWb.writeReg = r then s.memWb.value else s.reg r := by
  rw [State.reg, ← MemWb.get_writeBack]
  show Regs.get s.archRegs r = _
  cases hw : s.exMem.regWrite
  case false => simp [State.archRegs, hw]
  case true =>
    rw [State.archRegs, hw, if_pos rfl, Regs.get_put]
    exact if_congr (by simp [eq_comm]) rfl rfl

/-- Register 0 is received as stored, another register as the architectural state has it (40_pipeline.md R150). -/
theorem received_zero (s : State) : s.received 0 = s.reg 0 := if_pos rfl

theorem received_of_ne_zero (s : State) {r : Reg} (h : r ≠ 0) : s.received r = s.arch.reg r := if_neg h

/-- A source register's stored value, forwarded past, is the value received: a load in MEM, whose word is not known yet, is not
the producer, and register 0 is not forwarded. -/
theorem forwarded_eq_received {s : State} {src : Reg} {stored : Word} (hstored : stored = s.reg src)
    (hload : s.exMem.memToReg = true → s.exMem.writeReg ≠ src) :
    (if s.forwardSel src = 2 then s.exMem.aluResult else if s.forwardSel src = 1 then s.memWb.value else stored) =
      s.received src := by
  split
  next h2 =>
    obtain ⟨hw, hne, rfl⟩ := (forwardSel_eq_two s src).mp h2
    have hvalue : s.exMemValue = s.exMem.aluResult := if_neg fun hl => hload hl rfl
    rw [received_of_ne_zero s hne, arch_reg, if_pos ⟨hw, rfl⟩, hvalue]
  next h2 =>
    split
    next h1 =>
      obtain ⟨hw, hne, rfl, hnot⟩ := (forwardSel_eq_one s src).mp h1
      rw [received_of_ne_zero s hne, arch_reg, if_neg hnot, if_pos ⟨hw, rfl⟩]
    next h1 =>
      rw [forwardSel_eq_two] at h2
      rw [forwardSel_eq_one] at h1
      by_cases hzero : src = 0
      · rw [hstored, hzero, received_zero]
      · have hmem : ¬(s.exMem.regWrite = true ∧ s.exMem.writeReg = src) := fun ⟨hw, he⟩ => h2 ⟨hw, he ▸ hzero, he⟩
        have hwb : ¬(s.memWb.regWrite = true ∧ s.memWb.writeReg = src) := fun ⟨hw, he⟩ => h1 ⟨hw, he ▸ hzero, he, hmem⟩
        rw [received_of_ne_zero s hzero, arch_reg, if_neg hmem, if_neg hwb, hstored]

/-- The operands of the instruction in EX are the values it is to receive. -/
theorem State.Coherent.operands {s : State} (h : s.Coherent) (hr : s.Running) (hv : s.idEx.valid = true) :
    s.opA s.idEx.rs = s.received s.idEx.rs ∧ s.opB s.idEx.rt = s.received s.idEx.rt := by
  obtain ⟨hrd1, hrd2⟩ := h.reads hr.1 hv
  rw [opA_eq, opB_eq]
  exact ⟨forwarded_eq_received hrd1 fun hload => (h.loadUse hload hv).1,
    forwarded_eq_received hrd2 fun hload => (h.loadUse hload hv).2⟩

theorem noPendingZeroWrite_iff (s : State) :
    s.noPendingZeroWrite = true ↔ (s.exMem.regWrite = true → s.exMem.writeReg ≠ 0) ∧
      (s.memWb.regWrite = true → s.memWb.writeReg ≠ 0) := by
  simp [State.noPendingZeroWrite, imp_iff_not_or]

/-- With no write of register 0 on its way, its stored value is its newest. -/
theorem received_zero_of_noPendingZeroWrite {s : State} (h : s.noPendingZeroWrite = true) :
    s.received 0 = s.arch.reg 0 := by
  obtain ⟨hmem, hwb⟩ := (noPendingZeroWrite_iff s).mp h
  rw [received_zero, arch_reg, if_neg (not_and.mpr hmem), if_neg (not_and.mpr hwb)]

/-- Settles O32: the operands are what `State.received` says, which is the architectural value except for register 0. -/
theorem operandsAreNewestButRegisterZero : Obligations.OperandsAreNewestButRegisterZero := by
  intro s h hr hv
  obtain ⟨hA, hB⟩ := h.operands hr hv
  exact ⟨hA, hB, fun r => received_of_ne_zero s, received_zero s, received_zero_of_noPendingZeroWrite⟩

end Sys2Proof.Machine

/-! SUPPORT. What retiring one instruction does to the architectural state (40_pipeline.md section 12): the edge seen in that
state, the effect of each instruction, and that it is the sequential pseudocode's. -/

namespace Sys2Proof.Machine

open Sys2Proof Sys2Proof.Config Sys2Proof.Laws.Latched

/-! ### The edge in the architectural state -/

@[simp] theorem arch_dmem (s : State) : s.arch.dmem = s.dmemNext := rfl
@[simp] theorem arch_imem (s : State) : s.arch.imem = s.imem := rfl
@[simp] theorem arch_memSize (s : State) : s.arch.memSize = s.memSize := rfl
@[simp] theorem arch_params (s : State) : s.arch.params = s.params := rfl
@[simp] theorem arch_halted (s : State) : s.arch.halted = s.halted := rfl

/-- Writing back a second time changes nothing more: what the halt drain has written stays in MEM/WB (40_pipeline.md R141). -/
@[simp] theorem MemWb.writeBack_writeBack (l : MemWb) (x : Regs) : l.writeBack (l.writeBack x) = l.writeBack x := by
  apply Regs.ext_get
  intro r
  simp only [MemWb.get_writeBack]
  split <;> rfl

/-- The architectural registers are those after the writes of the instruction in WB and of the one leaving MEM. -/
theorem State.Coherent.archRegs_eq {s : State} (h : s.Coherent) :
    s.archRegs = s.memStage.writeBack (s.memWb.writeBack s.regs) := by
  cases hv : s.exMem.valid with
  | false => simp [State.archRegs, State.memStage, h.exMemBubble hv]
  | true => simp [State.archRegs, State.memStage, MemWb.writeBack, MemWb.value, State.exMemValue, hv]

/-- Halting or not, an edge leaves in the register file and MEM/WB together what was architectural before it. -/
theorem State.Coherent.writeBack_regsNext {s : State} (h : s.Coherent) (halting : Bool) :
    s.memStage.writeBack (s.regsNext halting) = s.archRegs := by
  cases halting <;> simp [State.regsNext, h.archRegs_eq]

/-- What an edge that takes `out` into EX/MEM does to the architectural state: the write of a register or of the data store
that `out` stands for, the next address, and the halt. -/
def ExOut.effect (out : ExOut) (a : Arch) : Arch :=
  { a with
    regs :=
      if out.exMem.regWrite then
        Regs.put a.regs out.exMem.writeReg
          (if out.exMem.memToReg then readWord a.memSize a.dmem out.exMem.aluResult else out.exMem.aluResult)
      else a.regs
    dmem :=
      if out.exMem.memWrite then
        writeWord a.params.oobWrite a.memSize a.dmem out.exMem.aluResult out.exMem.storeData
      else a.dmem
    pc := out.redirect.getD (a.pc + 4)
    halted := out.exMem.terminate }

/-- The next address is the redirect's, else that of the instruction behind the one in EX, wherever it now stands. -/
theorem State.Coherent.archPc_edge {s : State} (h : s.Coherent) (hv : s.idEx.valid = true) (out : ExOut) :
    (s.edge out).archPc = out.redirect.getD (s.archPc + 4) := by
  obtain ⟨hifId, hpc4⟩ := h.inOrder hv
  have hnext : s.archPc + 4 = s.ifId.pc4 - 4 := by simp [State.archPc, hv, hpc4]
  cases hredirect : out.redirect with
  | some target => simp [State.archPc, hredirect]
  | none =>
    rw [Option.getD_none, hnext]
    cases hstall : out.stall with
    | true => simp [State.archPc, hredirect, hstall, hifId]
    | false => simp [State.archPc, hredirect, hstall, idExNext_of_valid hifId]

/-- The edge seen in the architectural state, with an instruction in EX. -/
theorem State.Coherent.arch_edge {s : State} (h : s.Coherent) (hv : s.idEx.valid = true) (out : ExOut) :
    (s.edge out).arch = out.effect s.arch := by
  have hregs : (s.edge out).archRegs = (out.effect s.arch).regs := by
    simp only [State.archRegs, edge_regs, edge_memWb, h.writeBack_regsNext]
    rfl
  have hpc : (s.edge out).archPc = (out.effect s.arch).pc := h.archPc_edge hv out
  rw [State.arch, hregs, hpc]
  rfl

/-- A cycle with a bubble in EX leaves the architectural state alone. -/
theorem State.Coherent.arch_edge_of_bubble {s : State} (h : s.Coherent) (hr : s.Running) (hb : s.idEx = IdEx.bubble) :
    (s.edge { exMem := ExMem.bubble }).arch = s.arch := by
  have hregs : (s.edge { exMem := ExMem.bubble }).archRegs = s.archRegs := by
    simp only [State.archRegs, edge_regs, edge_memWb, edge_exMem, h.writeBack_regsNext]
    rfl
  have hpc : (s.edge { exMem := ExMem.bubble }).archPc = s.archPc := by
    cases hv : s.ifId.valid with
    | true => simp [State.archPc, hb, hv, idExNext_of_valid hv]
    | false => simp [State.archPc, hb, hv, idExNext_advance]
  rw [State.arch, hregs, hpc, State.arch, hr.1]
  rfl

/-! ### The effect of each instruction -/

/-- The meaning of `i` at `s` retires it and takes the architectural state to `a`. -/
structure State.CompletesAs (s : State) (i : Instr) (a : Arch) (t : State) : Prop where
  exec    : exec i s = .next t
  retires : s.RetiresInto t
  arch    : t.arch = a

section Executing
variable {s : State} {i : Instr}

theorem State.Executing.valid (h : s.Executing i) : s.idEx.valid = true := by
  rw [h.inEx]
  rfl

/-- The instruction in EX receives its operands through the register fields of its word. -/
theorem State.Executing.operands (h : s.Executing i) :
    s.opA (rsField (encode i)) = s.received (rsField (encode i)) ∧
      s.opB (rtField (encode i)) = s.received (rtField (encode i)) := by
  have hrs : s.idEx.rs = rsField (encode i) := congrArg IdEx.rs h.inEx
  have hrt : s.idEx.rt = rtField (encode i) := congrArg IdEx.rt h.inEx
  have hops := h.coherent.operands h.running h.valid
  rwa [hrs, hrt] at hops

/-- The PC+4 the instruction in EX carries is the address after its own. -/
theorem State.Executing.pc4 (h : s.Executing i) : s.idEx.pc4 = s.arch.pc + 4 := by
  simp [State.arch, State.archPc, h.valid]

/-- An instruction whose cycle raises nothing completes with the effect of what it hands to the edge. -/
theorem State.Executing.completesAs_effect (h : s.Executing i) {out : ExOut} (hexec : exec i s = s.finishCycle (.ok out))
    (hvalid : out.exMem.valid = true) : s.CompletesAs i (out.effect s.arch) (s.edge out) :=
  ⟨by rw [hexec, finishCycle_ok h.noRaise], retiresInto_edge hvalid, h.coherent.arch_edge h.valid out⟩

/-- What the MEM stage's check finds in the next cycle, of an access that has just left EX. -/
theorem misalignedInMem_edge_access {out : ExOut} {addr : Word} (hvalid : out.exMem.valid = true)
    (haccess : out.exMem.memRead = true ∨ out.exMem.memWrite = true) (haddr : out.exMem.aluResult = addr) :
    (s.edge out).misalignedInMem = true ↔ s.params.misaligned = .fault ∧ aligned addr = false := by
  simp [misalignedInMem_iff, hvalid, haccess, haddr]

end Executing

/-- `CompletesAs` with the architectural state written another way. -/
theorem State.CompletesAs.congr {s t : State} {i : Instr} {a b : Arch} (h : s.CompletesAs i a t) (hab : a = b) :
    s.CompletesAs i b t := hab ▸ h

section Effects
variable {s : State}

theorem completes_add {rs rt rd : Reg} {z : BitVec 5} (h : s.Executing (.add rs rt rd z)) :
    ∃ t, s.CompletesAs (.add rs rt rd z)
      { s.arch.advance with regs := Regs.put s.arch.regs rd (s.received rs + s.received rt) } t := by
  have hops := h.operands
  simp only [encode, rsField_encodeR, rtField_encodeR] at hops
  refine ⟨_, (h.completesAs_effect rfl rfl).congr ?_⟩
  simp [ExOut.effect, Arch.advance, alu, hops, h.running.1]

theorem completes_addi {rs rt : Reg} {imm : BitVec 16} (h : s.Executing (.addi rs rt imm)) :
    ∃ t, s.CompletesAs (.addi rs rt imm)
      { s.arch.advance with regs := Regs.put s.arch.regs rt (s.received rs + sext imm) } t := by
  have hops := h.operands
  simp only [encode, rsField_encodeI, rtField_encodeI] at hops
  refine ⟨_, (h.completesAs_effect rfl rfl).congr ?_⟩
  simp [ExOut.effect, Arch.advance, alu, hops, h.running.1]

/-- A load reads the data store as the older stores have left it, the one in MEM included (20_memory.md R56). -/
theorem completes_lw {rs rt : Reg} {imm : BitVec 16} (h : s.Executing (.lw rs rt imm)) :
    ∃ t, s.CompletesAs (.lw rs rt imm)
        { s.arch.advance with
          regs := Regs.put s.arch.regs rt (readWord s.memSize s.arch.dmem (s.received rs + sext imm)) } t ∧
      (t.misalignedInMem = true ↔ s.params.misaligned = .fault ∧ aligned (s.received rs + sext imm) = false) := by
  have hops := h.operands
  simp only [encode, rsField_encodeI, rtField_encodeI] at hops
  have haddr : s.effectiveAddress rs imm = s.received rs + sext imm := by simp [State.effectiveAddress, alu, hops]
  refine ⟨_, (h.completesAs_effect rfl rfl).congr ?_, misalignedInMem_edge_access rfl (.inl rfl) haddr⟩
  simp [ExOut.effect, Arch.advance, haddr, h.running.1]

theorem completes_sw {rs rt : Reg} {imm : BitVec 16} (h : s.Executing (.sw rs rt imm)) :
    ∃ t, s.CompletesAs (.sw rs rt imm)
        { s.arch.advance with
          dmem := writeWord s.params.oobWrite s.memSize s.arch.dmem (s.received rs + sext imm) (s.received rt) } t ∧
      (t.misalignedInMem = true ↔ s.params.misaligned = .fault ∧ aligned (s.received rs + sext imm) = false) := by
  have hops := h.operands
  simp only [encode, rsField_encodeI, rtField_encodeI] at hops
  have haddr : s.effectiveAddress rs imm = s.received rs + sext imm := by simp [State.effectiveAddress, alu, hops]
  refine ⟨_, (h.completesAs_effect rfl rfl).congr ?_, misalignedInMem_edge_access rfl (.inr rfl) haddr⟩
  simp [ExOut.effect, Arch.advance, haddr, hops, h.running.1]

theorem completes_beq {rs rt : Reg} {imm : BitVec 16} (h : s.Executing (.beq rs rt imm)) :
    ∃ t, s.CompletesAs (.beq rs rt imm)
      { s.arch with
        pc := if s.received rs = s.received rt then branchTarget (s.arch.pc + 4) (sext imm) else s.arch.pc + 4 } t := by
  have hops := h.operands
  simp only [encode, rsField_encodeI, rtField_encodeI] at hops
  refine ⟨_, (h.completesAs_effect rfl rfl).congr ?_⟩
  simp only [ExOut.effect, State.quietExMem, hops, zeroOutput_subtract, h.pc4]
  by_cases heq : s.received rs = s.received rt <;> simp [heq, h.running.1]

theorem completes_j {target : BitVec 26} (h : s.Executing (.j target)) :
    ∃ t, s.CompletesAs (.j target) { s.arch with pc := jumpTarget target } t := by
  refine ⟨_, (h.completesAs_effect rfl rfl).congr ?_⟩
  simp [ExOut.effect, State.quietExMem, h.running.1]

theorem completes_hlt {z : BitVec 26} (h : s.Executing (.hlt z)) :
    ∃ t, s.CompletesAs (.hlt z) { s.arch.advance with halted := true } t := by
  refine ⟨_, (h.completesAs_effect rfl rfl).congr ?_⟩
  simp [ExOut.effect, State.quietExMem, Arch.advance]

theorem completes_unknownOpcode {op : BitVec 6} {rest : BitVec 26} (h : s.Executing (.unknownOpcode op rest)) :
    ∃ t, s.CompletesAs (.unknownOpcode op rest) s.arch.advance t := by
  refine ⟨_, (h.completesAs_effect rfl rfl).congr ?_⟩
  simp [ExOut.effect, State.quietExMem, Arch.advance, h.running.1]

end Effects

/-! ### What the pseudocode's architectural states read like -/

theorem Arch.reg_put (a : Arch) (i : Reg) (v : Word) (r : Reg) :
    Arch.reg { a.advance with regs := Regs.put a.regs i v } r = if r = i then v else a.reg r :=
  Regs.get_put a.regs i v r

/-- The registers of an architectural state that an instruction has written one register of. -/
theorem reg_of_arch_eq_put {t : State} {a : Arch} {i : Reg} {v : Word}
    (h : t.arch = { a.advance with regs := Regs.put a.regs i v }) :
    t.arch.reg i = v ∧ (∀ r : Reg, r ≠ i → t.arch.reg r = a.reg r) ∧ t.arch.dmem = a.dmem ∧ t.arch.pc = a.pc + 4 ∧
      t.halted = a.halted := by
  refine ⟨?_, fun r hr => ?_, by rw [h]; rfl, by rw [h]; rfl, congrArg Arch.halted h⟩
  · rw [h, Arch.reg_put, if_pos rfl]
  · rw [h, Arch.reg_put, if_neg hr]

/-- Settles O37: ADD puts the sum of what it receives into `rd`. -/
theorem addEffect : Obligations.AddEffect := by
  intro s rs rt rd z h
  obtain ⟨t, hexec, hret, harch⟩ := completes_add h
  obtain ⟨hrd, hregs, hdmem, hpc, hhalt⟩ := reg_of_arch_eq_put harch
  exact ⟨t, hexec, hret, hrd, hregs, fun a => by rw [hdmem], hpc, hhalt.trans h.running.1⟩

/-- Settles O38: ADDI puts the sum with its immediate into `rt`. -/
theorem addiEffect : Obligations.AddiEffect := by
  intro s rs rt imm h
  obtain ⟨t, hexec, hret, harch⟩ := completes_addi h
  obtain ⟨hrt, hregs, hdmem, hpc, hhalt⟩ := reg_of_arch_eq_put harch
  exact ⟨t, hexec, hret, hrt, hregs, fun a => by rw [hdmem], hpc, hhalt.trans h.running.1⟩

/-- Settles O39: LW puts the word at its address into `rt`; the alignment of the address is looked at in the next cycle. -/
theorem lwEffect : Obligations.LwEffect := by
  intro s rs rt imm h
  obtain ⟨t, ⟨hexec, hret, harch⟩, hmisaligned⟩ := completes_lw h
  obtain ⟨hrt, hregs, hdmem, hpc, hhalt⟩ := reg_of_arch_eq_put harch
  exact ⟨t, hexec, hret, hrt, hregs, fun a => by rw [hdmem], hpc, hhalt.trans h.running.1, hmisaligned⟩

/-- Settles O40: SW changes the data store by one `writeWord`, which leaves every byte outside the word alone. -/
theorem swEffect : Obligations.SwEffect := by
  intro s rs rt imm h hcanon
  obtain ⟨-, hwf, -, -⟩ := hcanon
  obtain ⟨t, ⟨hexec, hret, harch⟩, hmisaligned⟩ := completes_sw h
  have hdmem := congrArg Arch.dmem harch
  refine ⟨t, hexec, hret, hdmem, fun a ha => ?_, fun r => by rw [harch]; rfl, congrArg Arch.pc harch,
    (congrArg Arch.halted harch).trans h.running.1, hmisaligned⟩
  rw [hdmem]
  exact read_writeWord_of_outside (dmemNext_wf hwf) _ ha

/-- Settles O41: BEQ changes the next address only, to its target on equal operands. -/
theorem beqEffect : Obligations.BeqEffect := by
  intro s rs rt imm h
  obtain ⟨t, hexec, hret, harch⟩ := completes_beq h
  exact ⟨t, hexec, hret, congrArg Arch.pc harch, fun r => by rw [harch]; rfl, fun a => by rw [harch],
    (congrArg Arch.halted harch).trans h.running.1⟩

/-- The jump target as four times the field (30_encoding.md R85). -/
theorem jumpTarget_eq_ofNat (target : BitVec 26) : jumpTarget target = BitVec.ofNat 32 (4 * target.toNat) := by
  rw [← jumpTarget_toNat, BitVec.ofNat_toNat, BitVec.setWidth_eq]

/-- Settles O42: J changes the next address only. -/
theorem jumpEffect : Obligations.JumpEffect := by
  intro s target h
  obtain ⟨t, hexec, hret, harch⟩ := completes_j h
  exact ⟨t, hexec, hret, (congrArg Arch.pc harch).trans (jumpTarget_eq_ofNat target), fun r => by rw [harch]; rfl,
    fun a => by rw [harch], (congrArg Arch.halted harch).trans h.running.1⟩

/-- Settles O44: an unknown opcode changes the next address only, to the one after it. -/
theorem unknownOpcodeEffect : Obligations.UnknownOpcodeEffect := by
  intro s op rest _ h
  obtain ⟨t, hexec, hret, harch⟩ := completes_unknownOpcode h
  exact ⟨t, hexec, hret, congrArg Arch.pc harch, fun r => by rw [harch]; rfl, fun a => by rw [harch]; rfl,
    (congrArg Arch.halted harch).trans h.running.1⟩

/-! ### The halted machine -/

/-- An edge that halts the machine leaves nothing to be written: the register file and the data store are the architectural
ones (40_pipeline.md R141). -/
theorem State.Coherent.drained_edge {s : State} (h : s.Coherent) (hhalt : (s.edge s.exStage).halted = true) :
    (s.edge s.exStage).archRegs = (s.edge s.exStage).regs ∧ (s.edge s.exStage).dmemNext = (s.edge s.exStage).dmem := by
  obtain ⟨hreg, hwrite, -⟩ := (edge_coherent h).haltQuiet hhalt
  refine ⟨?_, dmemNext_of_not_memWrite hwrite⟩
  rw [edge_exMem] at hreg
  rw [edge_halted] at hhalt
  simp [State.archRegs, State.regsNext, hreg, hhalt]

/-- Settles O43: HLT changes no register and no byte, and the edge that halts the machine drains what is in MEM and WB. -/
theorem haltEffect : Obligations.HaltEffect := by
  intro s z h
  obtain ⟨t, hexec, hret, harch⟩ := completes_hlt h
  have hhalt : t.halted = true := congrArg Arch.halted harch
  have hstep : step s = .next t := by
    rw [step_eq_exec h.running h.inEx, decodeWord_encode rfl, hexec]
  obtain ⟨-, rfl, -⟩ := step_next_edge h.running hstep
  obtain ⟨hregs, hdmem⟩ := h.coherent.drained_edge hhalt
  have hreg : ∀ r, (s.edge s.exStage).arch.reg r = s.arch.reg r := fun r => by rw [harch]; rfl
  have hread : ∀ a, Memory.read (s.edge s.exStage).arch.dmem a = Memory.read s.arch.dmem a := fun a => by rw [harch]; rfl
  exact ⟨_, hexec, hret, hhalt, fun r => by rw [← hreg, State.reg, ← hregs]; rfl, hreg,
    fun a => by rw [← hread, ← hdmem]; rfl, hread⟩

/-! ### The pipeline refines one-at-a-time execution (40_pipeline.md R150) -/

/-- `a` is what the pseudocode leaves where the pipeline stands at `t`: the same architectural state, except for the pc of a
halted machine (notes/assumptions/14.md). -/
def State.StandsFor (t : State) (a : Arch) : Prop :=
  { t.arch with pc := a.pc } = a ∧ (a.halted = false → t.arch.pc = a.pc)

theorem standsFor_of_arch_eq {t : State} {a : Arch} (h : t.arch = a) : t.StandsFor a := by
  subst h
  exact ⟨rfl, fun _ => rfl⟩

/-- A data access that the pipeline's MEM stage will not find misaligned is no fault of the pseudocode either. -/
theorem access_eq_next {s : State} {addr : Word} {p : Prop} {k : Arch} (hm : ¬p)
    (hiff : p ↔ s.params.misaligned = .fault ∧ aligned addr = false) : s.arch.access addr k = .next k := by
  rw [hiff] at hm
  refine if_neg fun hbad => hm ⟨hbad.1, ?_⟩
  simpa [aligned] using hbad.2

/-- A meaning that answers a next state has had the effect of the pseudocode on the architectural state, with the operands
received. -/
theorem exec_refines {s t : State} {i : Instr} (h : s.Executing i) (hexec : exec i s = .next t)
    (hm : t.misalignedInMem = false) :
    ∃ a, seqExecReading s.received i s.arch = .next a ∧ t.StandsFor a := by
  have same : ∀ {u : State} {a : Arch}, s.CompletesAs i a u → u = t := fun hu =>
    Host.Outcome.next.inj (hu.exec.symm.trans hexec)
  have hm' := Bool.eq_false_iff.mp hm
  cases i with
  | add =>
    obtain ⟨u, hu⟩ := completes_add h
    obtain rfl := same hu
    exact ⟨_, rfl, standsFor_of_arch_eq hu.arch⟩
  | addi =>
    obtain ⟨u, hu⟩ := completes_addi h
    obtain rfl := same hu
    exact ⟨_, rfl, standsFor_of_arch_eq hu.arch⟩
  | beq rs rt imm =>
    obtain ⟨u, hu⟩ := completes_beq h
    obtain rfl := same hu
    refine ⟨_, rfl, standsFor_of_arch_eq (hu.arch.trans ?_)⟩
    by_cases heq : s.received rs = s.received rt <;> simp [heq, Arch.advance]
  | j =>
    obtain ⟨u, hu⟩ := completes_j h
    obtain rfl := same hu
    exact ⟨_, rfl, standsFor_of_arch_eq hu.arch⟩
  | lw =>
    obtain ⟨u, hu, hiff⟩ := completes_lw h
    obtain rfl := same hu
    exact ⟨_, access_eq_next hm' hiff, standsFor_of_arch_eq hu.arch⟩
  | sw =>
    obtain ⟨u, hu, hiff⟩ := completes_sw h
    obtain rfl := same hu
    exact ⟨_, access_eq_next hm' hiff, standsFor_of_arch_eq hu.arch⟩
  | hlt =>
    obtain ⟨u, hu⟩ := completes_hlt h
    obtain rfl := same hu
    exact ⟨_, rfl, by rw [hu.arch]; rfl, nofun⟩
  | unimplementedRType rs rt rd z funct =>
    exact absurd rfl (exec_next_ne_unimplementedRType hexec rs rt rd z funct)
  | unknownOpcode =>
    obtain ⟨u, hu⟩ := completes_unknownOpcode h
    obtain rfl := same hu
    exact ⟨_, rfl, standsFor_of_arch_eq hu.arch⟩

/-- The pseudocode fetches the word that is in EX. -/
theorem fetched_of_valid {s : State} (hv : s.idEx.valid = true) :
    s.arch.fetched = decodeWord (s.fetchWord (s.idEx.pc4 - 4)) := by
  have hpc : s.arch.pc = s.idEx.pc4 - 4 := if_pos hv
  rw [Arch.fetched, hpc]
  rfl

/-- The instruction at the architectural pc is executing whenever EX holds one and MEM raises nothing. -/
theorem State.Coherent.executing {s : State} (h : s.Coherent) (hr : s.Running) (hv : s.idEx.valid = true)
    (hm : s.misalignedInMem = false) : s.Executing s.arch.fetched := by
  refine ⟨h, hr, ?_, hm⟩
  rw [fetched_of_valid hv, encode_decodeWord]
  exact h.decoded hv

/-- One step of the pipeline with an instruction in EX is one instruction of the pseudocode. -/
theorem step_refines {s t : State} (h : s.Coherent) (hr : s.Running) (hv : s.idEx.valid = true) (hstep : step s = .next t)
    (hm : t.misalignedInMem = false) :
    ∃ a, seqExecReading s.received s.arch.fetched s.arch = .next a ∧ t.StandsFor a := by
  obtain ⟨hm', -⟩ := step_next_edge hr hstep
  refine exec_refines (h.executing hr hv hm') ?_ hm
  rw [← hstep, step_eq_exec hr (h.decoded hv), fetched_of_valid hv]

/-- A step with a bubble in EX leaves the architectural state alone. -/
theorem step_of_bubble_arch {s t : State} (h : s.Coherent) (hr : s.Running) (hv : s.idEx.valid = false)
    (hstep : step s = .next t) : t.arch = s.arch := by
  have hb := h.idExBubble hv
  rw [step_next_of_bubble hr hb hstep, h.arch_edge_of_bubble hr hb]

/-- Settles O50: the instruction in EX has the pseudocode's effect, case by case (`exec_refines`), and a bubble none. -/
theorem pipelineRefinesOneAtATime : Obligations.PipelineRefinesOneAtATime :=
  fun _ _ h hr hstep hm => ⟨fun hv => step_refines h hr hv hstep hm, fun hv => step_of_bubble_arch h hr hv hstep⟩

end Sys2Proof.Machine

/-! SUPPORT. Whole runs that halt (40_pipeline.md section 12; 70_reset_and_hazards.md R242): one induction over such a run, its
agreement with one-at-a-time execution, and its number of cycles. -/

namespace Sys2Proof.Machine

open Sys2Proof Sys2Proof.Config

/-! ### Induction over a run that halts -/

/-- A run from a running machine that ends halted is a step that halts it, or a step to a running machine and the rest of the
run: no edge of it raises a fault, which would stop the machine for good. -/
theorem halted_run_induction {motive : State → State → Prop}
    (last : ∀ s t, s.Running → step s = .next t → t.halted = true → motive s t)
    (more : ∀ s t e, s.Running → step s = .next t → t.Running → motive t e → motive s e)
    {s : State} (hr : s.Running) {n : Nat} (hh : (s.clockTimes n).halted = true) : motive s (s.clockTimes n) := by
  induction n generalizing s with
  | zero => exact absurd (hr.1.symm.trans hh) Bool.false_ne_true
  | succ n ih =>
    rw [State.clockTimes] at hh ⊢
    cases hstep : step s with
    | next t =>
      rw [clock_next hstep] at hh ⊢
      cases ht : t.halted with
      | true =>
        rw [clockTimes_of_step_self (step_halted ht)]
        exact last s t hr hstep ht
      | false =>
        have hrt := running_of_step_next hr hstep ht
        exact more s t _ hr hstep hrt (ih hrt hh)
    | fault f =>
      rw [clock_fault hstep, clockTimes_of_fault_recorded rfl] at hh
      exact absurd (hr.1.symm.trans hh) Bool.false_ne_true
    | refused r =>
      rw [step_eq_cycle hr] at hstep
      exact absurd hstep (finishCycle_not_refused s _ r)

theorem load_running (image : List Byte) (params : Params) : (State.load image params).Running := ⟨rfl, rfl⟩

/-! ### One instruction at a time -/

theorem seqRun_succ {a b : Arch} (h : seqStep a = .next b) (n : Nat) : seqRun (n + 1) a = seqRun n b := by
  simp [seqRun, h]

/-- One instruction more at the end of a run. -/
theorem seqRun_snoc {n : Nat} {a b c : Arch} (hrun : seqRun n a = some b) (hstep : seqStep b = .next c) :
    seqRun (n + 1) a = some c := by
  induction n generalizing a with
  | zero =>
    obtain rfl : a = b := Option.some.inj hrun
    exact seqRun_succ hstep 0
  | succ n ih =>
    cases hfirst : seqStep a with
    | next d =>
      rw [seqRun_succ hfirst] at hrun ⊢
      exact ih hrun
    | fault | refused => simp [seqRun, hfirst] at hrun

/-- While the machine runs, the pseudocode's state is the architectural one, pc included. -/
theorem State.StandsFor.eq_arch {s : State} {a : Arch} (h : s.StandsFor a) (hr : s.halted = false) : a = s.arch := by
  obtain ⟨hrest, hpc⟩ := h
  have hhalt : a.halted = false := by rw [← hrest]; exact hr
  rw [← hrest, ← hpc hhalt]

/-! ### Programs that never write register 0 -/

/-- No word at a multiple of 4 writes register 0. -/
def State.NeverWritesZero (s : State) : Prop :=
  ∀ a : Word, aligned a = true → destinationReg (decodeWord (s.fetchWord a)) ≠ some 0

/-- What holds along the run of a program that never writes register 0, `s₀` being the machine it was loaded into. -/
structure State.RunsAs (s₀ s : State) : Prop where
  coherent : s.Coherent
  aligned  : s.PcAligned
  fetch    : ∀ a : Word, s.fetchWord a = s₀.fetchWord a
  zero     : s.noPendingZeroWrite = true
  /-- Unless the access in MEM is a fault, as many instructions one at a time as have retired lead here. -/
  agrees   : s.misalignedInMem = false → ∃ a, seqRun s.retired s₀.arch = some a ∧ s.StandsFor a
  /-- A halted machine has written all there is to write. -/
  drained  : s.halted = true → s.archRegs = s.regs ∧ s.dmemNext = s.dmem

/-- With no write of register 0 on its way, every register is received at its newest value. -/
theorem received_eq_arch_reg {s : State} (h : s.noPendingZeroWrite = true) : s.received = s.arch.reg := by
  funext r
  by_cases hr : r = 0
  · rw [hr, received_zero_of_noPendingZeroWrite h]
  · exact received_of_ne_zero s hr

/-- The address of the instruction in EX is a multiple of 4. -/
theorem aligned_sub_four {a : Word} (h : aligned a = true) : aligned (a - 4) = true := by
  rw [sub_eq_add_neg]
  exact aligned_add h (by decide)

/-- The instruction going from EX into MEM does not write register 0 if its word does not. -/
theorem exMem_writeReg_ne_zero {s t : State} (h : s.Coherent) (hr : s.Running) (hstep : step s = .next t)
    (hdest : s.idEx.valid = true → destinationReg (decodeWord (s.fetchWord (s.idEx.pc4 - 4))) ≠ some 0)
    (hw : t.exMem.regWrite = true) : t.exMem.writeReg ≠ 0 := by
  cases hv : s.idEx.valid with
  | false =>
    rw [step_next_of_bubble hr (h.idExBubble hv) hstep] at hw
    cases hw
  | true =>
    rw [step_eq_exec hr (h.decoded hv)] at hstep
    obtain ⟨hiff, hreg⟩ := onlyAddAddiLwWriteRegisters _ s t hstep
    obtain ⟨r, hr⟩ := Option.isSome_iff_exists.mp (hiff.mp hw)
    rw [hreg r hr]
    rintro rfl
    exact hdest hv hr

/-- The instruction going from MEM into WB writes the register it was to write in MEM. -/
theorem memStage_of_regWrite {s : State} (hw : s.memStage.regWrite = true) :
    s.exMem.regWrite = true ∧ s.memStage.writeReg = s.exMem.writeReg := by
  cases hv : s.exMem.valid <;> simp_all [State.memStage]

theorem noPendingZeroWrite_step {s t : State} (h : s.Coherent) (hr : s.Running) (hstep : step s = .next t)
    (hzero : s.noPendingZeroWrite = true)
    (hdest : s.idEx.valid = true → destinationReg (decodeWord (s.fetchWord (s.idEx.pc4 - 4))) ≠ some 0) :
    t.noPendingZeroWrite = true := by
  rw [noPendingZeroWrite_iff] at hzero ⊢
  refine ⟨exMem_writeReg_ne_zero h hr hstep hdest, fun hw => ?_⟩
  obtain ⟨-, rfl, -⟩ := step_next_edge hr hstep
  obtain ⟨hmem, hreg⟩ := memStage_of_regWrite hw
  rw [edge_memWb, hreg]
  exact hzero.1 hmem

/-- One step of the pipeline is one more instruction of the pseudocode, or none for a bubble in EX. -/
theorem seqRun_step {s t : State} {a₀ : Arch} (h : s.Coherent) (hr : s.Running) (hzero : s.noPendingZeroWrite = true)
    (hrun : seqRun s.retired a₀ = some s.arch) (hstep : step s = .next t) (hm : t.misalignedInMem = false) :
    ∃ a, seqRun t.retired a₀ = some a ∧ t.StandsFor a := by
  obtain ⟨-, hretired, -⟩ := countersAdvance s t hr hstep
  cases hv : s.idEx.valid with
  | false =>
    have harch := step_of_bubble_arch h hr hv hstep
    refine ⟨s.arch, ?_, standsFor_of_arch_eq harch⟩
    rw [hretired, hv]
    exact hrun
  | true =>
    obtain ⟨a, hseq, hstands⟩ := step_refines h hr hv hstep hm
    have hseqStep : seqStep s.arch = .next a := by
      rw [seqStep, if_neg (by simp [hr.1]), seqExec, ← received_eq_arch_reg hzero, hseq]
    refine ⟨a, ?_, hstands⟩
    rw [hretired, hv]
    exact seqRun_snoc hrun hseqStep

/-- Every step keeps what holds along the run. -/
theorem runsAs_step {s₀ s t : State} (hprog : s₀.NeverWritesZero) (hr : s.Running) (h : s₀.RunsAs s)
    (hstep : step s = .next t) : s₀.RunsAs t := by
  obtain ⟨hcoherent, haligned, hfetch, hzero, hagrees, -⟩ := h
  obtain ⟨-, hfetch'⟩ := storesNeverChangeFetch s t hstep
  obtain ⟨hm, hedge, -⟩ := step_next_edge hr hstep
  obtain ⟨a, hrun, hstands⟩ := hagrees hm
  obtain rfl := hstands.eq_arch hr.1
  refine ⟨step_keeps_coherent hcoherent hstep, hedge ▸ edge_pcAligned haligned,
    fun a => (hfetch' a).trans (hfetch a), noPendingZeroWrite_step hcoherent hr hstep hzero fun _ => ?_,
    seqRun_step hcoherent hr hzero hrun hstep, ?_⟩
  · obtain ⟨-, -, hpc4⟩ := haligned
    rw [hfetch]
    exact hprog _ (aligned_sub_four hpc4)
  · subst hedge
    exact hcoherent.drained_edge

theorem runsAs_load (image : List Byte) (params : Params) : (State.load image params).RunsAs (State.load image params) where
  coherent := coherent_load image params
  aligned := pcAligned_load image params
  fetch _ := rfl
  zero := rfl
  agrees _ := ⟨_, rfl, standsFor_of_arch_eq rfl⟩
  drained := nofun

/-- The halted end of a run: nothing is left to be written or raised. -/
theorem State.RunsAs.of_halted {s₀ s : State} (h : s₀.RunsAs s) (hh : s.halted = true) :
    ∃ a : Arch, seqRun s.retired s₀.arch = some a ∧ a.halted = true ∧ a.regs = s.regs ∧ a.dmem = s.dmem := by
  have hterm : s.exMem.terminate = true := h.coherent.haltInMem.symm.trans hh
  obtain ⟨-, hwrite, hread⟩ := h.coherent.haltQuiet hterm
  have hm : s.misalignedInMem = false := by simp [State.misalignedInMem, hwrite, hread]
  obtain ⟨a, hrun, hrest, -⟩ := h.agrees hm
  obtain ⟨hregs, hdmem⟩ := h.drained hh
  exact ⟨a, hrun, by rw [← hrest]; exact hh, by rw [← hrest]; exact hregs, by rw [← hrest]; exact hdmem⟩

/-- Settles O51: along the run the pipeline stands for the state that executing the retired instructions one at a time leads
to, and at the halt the register file and the data store are those of that state. -/
theorem haltedRunAgreesWithOneAtATime : Obligations.HaltedRunAgreesWithOneAtATime := by
  intro image params n s₀ s hprog hh
  have hruns : s₀.RunsAs s₀ → s₀.RunsAs s :=
    halted_run_induction (motive := fun u e => s₀.RunsAs u → s₀.RunsAs e)
      (fun u t hr hstep _ h => runsAs_step hprog hr h hstep)
      (fun u t e hr hstep _ ih h => ih (runsAs_step hprog hr h hstep)) (load_running image params) hh
  exact (hruns (runsAs_load image params)).of_halted hh

/-! ### The number of cycles (70_reset_and_hazards.md R242) -/

/-- The bubbles between the fetch and EX: those that have yet to pass EX without retiring. -/
def State.pendingBubbles (s : State) : Nat := (!s.ifId.valid).toNat + (!s.idEx.valid).toNat

/-- A valid instruction in EX has a valid one behind it. -/
theorem State.Coherent.pendingBubbles_of_valid {s : State} (h : s.Coherent) (hv : s.idEx.valid = true) :
    s.pendingBubbles = 0 := by
  obtain ⟨hifId, -⟩ := h.inOrder hv
  simp [State.pendingBubbles, hv, hifId]

theorem State.Coherent.valid_of_redirectNow {s : State} (h : s.Coherent) (hredirect : s.redirectNow = true) :
    s.idEx.valid = true := by
  cases hv : s.idEx.valid with
  | true => rfl
  | false => rw [(quiet_of_bubble (h.idExBubble hv)).2] at hredirect; cases hredirect

/-- A cycle retires an instruction or uses up a bubble; a stall makes one new bubble and a redirect two. -/
theorem State.Coherent.pendingBubbles_edge {s : State} (h : s.Coherent) :
    1 + (s.edge s.exStage).pendingBubbles =
      s.idEx.valid.toNat + s.pendingBubbles + s.stallNow.toNat + 2 * s.redirectNow.toNat := by
  cases hredirect : s.redirectNow with
  | true =>
    have hv := h.valid_of_redirectNow hredirect
    have hsome := exStage_redirect_of_redirectNow hredirect
    rw [h.pendingBubbles_of_valid hv]
    simp [State.pendingBubbles, State.stallNow, hsome, hv, hredirect]
  | false =>
    have hnone := exStage_redirect_of_not_redirectNow hredirect
    cases hstall : s.hazardStall with
    | true =>
      have hv := h.valid_of_memRead (memRead_of_hazardStall hstall)
      obtain ⟨hifId, -⟩ := h.inOrder hv
      simp [State.pendingBubbles, State.stallNow, hnone, hstall, hv, hifId, hredirect]
    | false =>
      cases hifId : s.ifId.valid <;> cases hv : s.idEx.valid <;>
        simp [State.pendingBubbles, State.stallNow, hnone, hstall, hv, hifId, hredirect, idExNext_advance]

/-- The edge that halts the machine leaves no bubble behind the HLT, which neither stalls nor redirects. -/
theorem State.Coherent.pendingBubbles_of_halting {s : State} (h : s.Coherent)
    (hh : (s.edge s.exStage).halted = true) : (s.edge s.exStage).pendingBubbles = 0 := by
  obtain ⟨hv, hterm⟩ := (exStage_terminate s).mp hh
  obtain ⟨-, -, hread, hjump, hbranch⟩ := h.ofTable.halt hterm
  have hbalance := h.pendingBubbles_edge
  rw [h.pendingBubbles_of_valid hv, hv, State.stallNow, redirectNow_eq_false hjump hbranch] at hbalance
  have hstall : s.hazardStall = false := by simp [State.hazardStall, hread]
  simpa [hstall] using hbalance

/-- From `s` to the halted end `e`: every cycle retires an instruction, or uses up a bubble that was there at `s` or that a
stall or a redirect has made since. -/
def CycleBalance (s e : State) : Prop :=
  ∃ k, e.cycles = s.cycles + k ∧
    k + s.retired = e.retired + s.pendingBubbles + State.countCycles State.stallNow k s +
      2 * State.countCycles State.redirectNow k s

theorem cycleBalance_last {s t : State} (h : s.Coherent) (hr : s.Running) (hstep : step s = .next t)
    (hh : t.halted = true) : CycleBalance s t := by
  obtain ⟨-, rfl, -⟩ := step_next_edge hr hstep
  have hbalance := h.pendingBubbles_edge
  have hnone := h.pendingBubbles_of_halting hh
  refine ⟨1, rfl, ?_⟩
  simp only [State.countCycles, edge_retired, exStage_valid]
  omega

theorem cycleBalance_more {s t e : State} (h : s.Coherent) (hr : s.Running) (hstep : step s = .next t)
    (hrest : CycleBalance t e) : CycleBalance s e := by
  have hclock := clock_next hstep
  obtain ⟨k, hcycles, hbalance⟩ := hrest
  refine ⟨k + 1, ?_⟩
  rw [State.countCycles, State.countCycles, hclock]
  obtain ⟨-, rfl, -⟩ := step_next_edge hr hstep
  have hedge := h.pendingBubbles_edge
  simp only [edge_cycles, edge_retired, exStage_valid] at hcycles hbalance
  omega

theorem cycleBalance_of_halted {s : State} (h : s.Coherent) (hr : s.Running) {n : Nat}
    (hh : (s.clockTimes n).halted = true) : CycleBalance s (s.clockTimes n) :=
  halted_run_induction (motive := fun u e => u.Coherent → CycleBalance u e)
    (fun _ _ hr hstep hhalt hu => cycleBalance_last hu hr hstep hhalt)
    (fun _ _ _ hr hstep _ ih hu => cycleBalance_more hu hr hstep (ih (step_keeps_coherent hu hstep))) hr hh h

/-- Settles O52: the balance of bubbles over the run, which starts with the two of reset; two cycles more than instructions make
more than one cycle for each. -/
theorem cycleCountOfAHaltedRun : Obligations.CycleCountOfAHaltedRun := by
  intro image params n s₀ s hh
  have hrun : CycleBalance s₀ s := cycleBalance_of_halted (coherent_load image params) (load_running image params) hh
  obtain ⟨k, hcycles, hbalance⟩ := hrun
  have hstart : s₀.cycles = 0 ∧ s₀.retired = 0 ∧ s₀.pendingBubbles = 2 := ⟨rfl, rfl, rfl⟩
  obtain rfl : k = s.cycles := by omega
  refine ⟨by omega, fun q hq => ?_⟩
  rw [State.cpi] at hq
  split at hq
  next => cases hq
  next hretired =>
    obtain rfl := Option.some.inj hq
    rw [one_lt_div (by exact_mod_cast Nat.pos_of_ne_zero hretired)]
    exact_mod_cast (by omega : s.retired < s.cycles)

end Sys2Proof.Machine
